-- ==== Sys2Proof/Word.lean ====
section
/-! DEFINITION. The word types of the core (00_scope.md, derived widths) and the signals of one step (10_state.md R32). -/

namespace Sys2Proof

/-- One input byte `b[7:0]` (R80). -/
abbrev Byte := BitVec 8

/-- A data byte's value, a note number or a velocity: 0..127 (R83). -/
abbrev Data7 := BitVec 7

/-- The channel nibble `b[3:0]` of a channel status byte (R82). -/
abbrev Channel := BitVec 4

/-- A channel sample: 16-bit two's complement, read with `BitVec.toInt` (R8, R175). -/
abbrev Sample := BitVec 16

/-- What the agents drive in one step: the three strobes and `byte_in` (R32). -/
structure StepInput where
  reset      : Bool
  tick       : Bool
  byteStrobe : Bool
  byteIn     : Byte
deriving DecidableEq, Repr

/-- A step in which no strobe is driven. -/
def StepInput.idle : StepInput := ⟨false, false, false, 0⟩

/-- The decoder's event: a complete two-parameter channel message (R37, R122). -/
structure ChannelMessage where
  status : Byte
  data1  : Data7
  data2  : Data7
deriving DecidableEq, Repr

end Sys2Proof
end

