-- ==== Sys2Proof/Config.lean ====
section
/-! DEFINITION. The implementation parameters, fixed when the core is constructed (00_scope.md R5 to R13), and the free values: what the spec leaves without a value. -/

namespace Sys2Proof

/-- `NOTE_ON_MODE` (R9, 90_conflicts.md C1): how the allocator classifies a channel message. -/
inductive NoteOnMode
  /-- The general MIDI rule, the default (R141). -/
  | general
  /-- The reference behaviour: only the literal status 0x9B is a note-on (R142). -/
  | reference
deriving DecidableEq, Repr

/-- `SAMPLE_BITS`, fixed at 16 (R8). -/
def sampleBits : Nat := 16

/-- The legal values of the parameters (R5, R6, R7, R11; U10): N ≥ 1, FS ≥ 1, PHASE_BITS ≥ 1 and a
table of 128 entries whose entries 0 to 11 are 0. -/
def paramsLegal (n fs phaseBits : Nat) (noteFreq : List Nat) : Bool :=
  decide (1 ≤ n) && decide (1 ≤ fs) && decide (1 ≤ phaseBits) &&
    decide (noteFreq.length = 128) && (noteFreq.take 12).all (fun f => decide (f = 0))

/-- The construction-time parameters (R5 to R11, R13). No core exists with illegal ones
(93_implementation_defined.md U10, treatment `refuse`), so the record carries the check: illegal
parameters cannot be built (log 12). `REF_NOTE_ON_STATUS` (R10), `SAMPLE_BITS` (R8) and `OSC` (R12,
R173) have one value each and are definitions. -/
structure Params where
  /-- `N`, the number of slots and of output channels (R5). -/
  n          : Nat
  /-- `FS`, the sample rate in Hz (R6). -/
  fs         : Nat
  /-- `PHASE_BITS`, the width of the phase counter (R7). -/
  phaseBits  : Nat
  /-- `NOTE_ON_MODE` (R9). -/
  noteOnMode : NoteOnMode
  /-- `NOTE_FREQ`, in Hz (R11). -/
  noteFreq   : List Nat
  legal      : paramsLegal n fs phaseBits noteFreq = true
deriving DecidableEq, Repr

/-- FREE VALUE (log 4). The channel sample for amplitude `a`, frequency `f` and phase `p` when
`trunc(a · sin(2π f p / FS))` does not fit int16. R173 and U3 give no value there; no slot reachable
from reset has such an amplitude (R27). -/
opaque Config.sampleBeyondInt16 (a f p : Nat) : Sample

/-- FREE VALUE (log 9). The 32-bit capability port for a parameter value that 32 bits cannot hold:
R32 gives the port 32 bits and R5, R6 give the parameter no upper bound. -/
opaque Config.portBeyond32 (v : Nat) : BitVec 32

end Sys2Proof
end

