-- ==== Sys2Proof/Machine/Operands.lean ====
section
/-! DEFINITION. Operand forms: the fields of a byte (R80, R82, R83), of a status (R84), of an event word (30_encoding.md), and the amplitude (R146). -/

namespace Sys2Proof.Machine

/-- `b[6:0]`, the value of a data byte (R83). -/
def dataValue (b : Byte) : Data7 := b.extractLsb' 0 7

/-- `b[3:0]`, the channel of a channel status byte (R82). -/
def channelOf (b : Byte) : Channel := b.extractLsb' 0 4

/-- `b[2:0]`, the selector of a real-time byte (R81). -/
def realtimeSelector (b : Byte) : BitVec 3 := b.extractLsb' 0 3

/-- The channel status byte with high nibble `t` and channel `c` (R82). -/
def statusByte (t : BitVec 4) (c : Channel) : Byte := t ++ c

/-- `0x80 ≤ st ≤ 0xEF`: a channel voice status (R122). -/
def isChannelStatus (st : Byte) : Bool := decide (0x80 ≤ st.toNat) && decide (st.toNat ≤ 0xEF)

/-- 0x80..0xBF and 0xE0..0xEF: the channel statuses of two-parameter messages (R84). -/
def isTwoParamStatus (st : Byte) : Bool :=
  (decide (0x80 ≤ st.toNat) && decide (st.toNat ≤ 0xBF)) ||
    (decide (0xE0 ≤ st.toNat) && decide (st.toNat ≤ 0xEF))

/-- 0xC0..0xDF, 0xF1, 0xF3: the statuses of one-parameter messages (R84). -/
def isOneParamStatus (st : Byte) : Bool :=
  (decide (0xC0 ≤ st.toNat) && decide (st.toNat ≤ 0xDF)) || decide (st = 0xF1) || decide (st = 0xF3)

/-- `REF_NOTE_ON_STATUS` (R10). -/
def refNoteOnStatus : Byte := 0x9B

/-- `AMP(v) = v × 256`, 16 bits unsigned (R146). -/
def amplitude (v : Data7) : BitVec 16 := v.setWidth 16 * 256

/-- The event word `status << 16 | data1 << 8 | data2` (30_encoding.md); bits 15 and 7 are 0. -/
def eventWord (m : ChannelMessage) : BitVec 24 := m.status ++ 0#1 ++ m.data1 ++ 0#1 ++ m.data2

/-- The message an event word carries: status `[23:16]`, data1 `[14:8]`, data2 `[6:0]`. -/
def messageOfWord (w : BitVec 24) : ChannelMessage :=
  ⟨w.extractLsb' 16 8, w.extractLsb' 8 7, w.extractLsb' 0 7⟩

end Sys2Proof.Machine
end

