-- ==== Sys2Proof/Syntax.lean ====
section
/-! DEFINITION. The core's operations: one constructor per row of spec/opcode_table.json. -/

namespace Sys2Proof

/-- The core's "instructions" (30_encoding.md, opening paragraph). The `byte8` rows are whole BYTE
steps with a byte of that class, the `event24` rows are the allocator's operation on an emitted event
word, the `strobe3` rows are the three atomic operations. -/
inductive Instr
  -- byte8 rows (R81)
  /-- `0ddddddd`: a data byte with value `v` (R117 to R124). -/
  | data (v : Data7)
  /-- `1000cccc` (R110). -/
  | stNoteOff (c : Channel)
  /-- `1001cccc` (R111). -/
  | stNoteOn (c : Channel)
  /-- `1010cccc` (R112). -/
  | stPolyPressure (c : Channel)
  /-- `1011cccc` (R113). -/
  | stControlChange (c : Channel)
  /-- `1100cccc` (R114). -/
  | stProgramChange (c : Channel)
  /-- `1101cccc` (R115). -/
  | stChannelPressure (c : Channel)
  /-- `1110cccc` (R116). -/
  | stPitchBend (c : Channel)
  /-- `11110000` (R102). -/
  | sysExStart
  /-- `11110001` (R103). -/
  | sysF1
  /-- `11110010` (R104). -/
  | sysF2
  /-- `11110011` (R105). -/
  | sysF3
  /-- `11110100` (R106). -/
  | sysF4
  /-- `11110101` (R107). -/
  | sysF5
  /-- `11110110` (R108). -/
  | sysF6
  /-- `11110111` (R109). -/
  | sysExEnd
  /-- `11111rrr`: the selector `r` is not read (R101). -/
  | realtime (r : BitVec 3)
  -- event24 rows (R141 to R145); n = data1, v = data2
  /-- Status `1001cccc`, mode GENERAL, `v ≠ 0` (R141, R143). -/
  | noteOnGeneral (c : Channel) (n v : Data7)
  /-- Status `1001cccc` with velocity 0, mode GENERAL (R141, R144). -/
  | noteOffGeneral9nV0 (c : Channel) (n : Data7)
  /-- Status `1000cccc`, mode GENERAL (R141, R144). -/
  | noteOffGeneral8n (c : Channel) (n v : Data7)
  /-- Status `101xxxxx`, that is 0xA0..0xBF, mode GENERAL; `k` is its low five bits (R141, R145). -/
  | ignoreGeneralAnBn (k : BitVec 5) (n v : Data7)
  /-- Status `1110cccc`, mode GENERAL (R141, R145). -/
  | ignoreGeneralEn (c : Channel) (n v : Data7)
  /-- Status 0x9B, mode REFERENCE, any velocity (R142, R143). -/
  | noteOnReference (n v : Data7)
  /-- Any other two-parameter channel status, mode REFERENCE; `k` is its low seven bits (R142, R144). -/
  | noteOffReference (k : BitVec 7) (n v : Data7)
  -- strobe3 rows
  /-- The TICK operation (R171). -/
  | tick
  /-- The RESET operation (R220). -/
  | reset
  /-- The BYTE operation with `byte_in = b` (R100). -/
  | byte (b : Byte)
deriving DecidableEq, Repr

end Sys2Proof
end

