-- ==== Sys2Proof/WellFormed.lean ====
section
/-! DEFINITION. Well-formed operations: the conditions of the opcode table's rows that no mask expresses. The rows' other fields take every value. -/

namespace Sys2Proof

open Machine

/-- The row's own condition on its operands. NOTE_ON__GENERAL asks `v ≠ 0` (R141). NOTE_OFF__REFERENCE
asks a status other than 0x9B (R142) that is a two-parameter channel status, since no other status
reaches the allocator (R140). -/
def Instr.wf : Instr → Bool
  | .data _ => true
  | .stNoteOff _ => true
  | .stNoteOn _ => true
  | .stPolyPressure _ => true
  | .stControlChange _ => true
  | .stProgramChange _ => true
  | .stChannelPressure _ => true
  | .stPitchBend _ => true
  | .sysExStart => true
  | .sysF1 => true
  | .sysF2 => true
  | .sysF3 => true
  | .sysF4 => true
  | .sysF5 => true
  | .sysF6 => true
  | .sysExEnd => true
  | .realtime _ => true
  | .noteOnGeneral _ _ v => v != 0
  | .noteOffGeneral9nV0 _ _ => true
  | .noteOffGeneral8n _ _ _ => true
  | .ignoreGeneralAnBn _ _ _ => true
  | .ignoreGeneralEn _ _ _ => true
  | .noteOnReference _ _ => true
  | .noteOffReference k _ _ => (1#1 ++ k != refNoteOnStatus) && isTwoParamStatus (1#1 ++ k)
  | .tick => true
  | .reset => true
  | .byte _ => true

/-- The value of NOTE_ON_MODE an event row's condition names; the other rows have none. -/
def Instr.mode : Instr → Option NoteOnMode
  | .noteOnGeneral _ _ _ => some .general
  | .noteOffGeneral9nV0 _ _ => some .general
  | .noteOffGeneral8n _ _ _ => some .general
  | .ignoreGeneralAnBn _ _ _ => some .general
  | .ignoreGeneralEn _ _ _ => some .general
  | .noteOnReference _ _ => some .reference
  | .noteOffReference _ _ _ => some .reference
  | .data _ => none
  | .stNoteOff _ => none
  | .stNoteOn _ => none
  | .stPolyPressure _ => none
  | .stControlChange _ => none
  | .stProgramChange _ => none
  | .stChannelPressure _ => none
  | .stPitchBend _ => none
  | .sysExStart => none
  | .sysF1 => none
  | .sysF2 => none
  | .sysF3 => none
  | .sysF4 => none
  | .sysF5 => none
  | .sysF6 => none
  | .sysExEnd => none
  | .realtime _ => none
  | .tick => none
  | .reset => none
  | .byte _ => none

end Sys2Proof
end

