-- ==== Sys2Proof/Decode.lean ====
section
/-! DEFINITION. The decoder and the encoder, from the byte-class table of R81 and the event and strobe rows of spec/opcode_table.json. -/

namespace Sys2Proof

open Machine

/-! ## Byte classes -/

/-- The 17 byte classes of R81. -/
inductive ByteClass
  | data | stNoteOff | stNoteOn | stPolyPressure | stControlChange | stProgramChange
  | stChannelPressure | stPitchBend | sysExStart | sysF1 | sysF2 | sysF3 | sysF4 | sysF5 | sysF6
  | sysExEnd | realtime
deriving DecidableEq, Repr

/-- A row of R81's table: a byte `b` is in the row when `(b & mask) = pattern`. -/
structure ByteRow where
  mask    : Byte
  pattern : Byte
  cls     : ByteClass
deriving DecidableEq, Repr

/-- The table of R81. -/
def byteRows : List ByteRow :=
  [ ⟨0x80, 0x00, .data⟩,
    ⟨0xF0, 0x80, .stNoteOff⟩,
    ⟨0xF0, 0x90, .stNoteOn⟩,
    ⟨0xF0, 0xA0, .stPolyPressure⟩,
    ⟨0xF0, 0xB0, .stControlChange⟩,
    ⟨0xF0, 0xC0, .stProgramChange⟩,
    ⟨0xF0, 0xD0, .stChannelPressure⟩,
    ⟨0xF0, 0xE0, .stPitchBend⟩,
    ⟨0xFF, 0xF0, .sysExStart⟩,
    ⟨0xFF, 0xF1, .sysF1⟩,
    ⟨0xFF, 0xF2, .sysF2⟩,
    ⟨0xFF, 0xF3, .sysF3⟩,
    ⟨0xFF, 0xF4, .sysF4⟩,
    ⟨0xFF, 0xF5, .sysF5⟩,
    ⟨0xFF, 0xF6, .sysF6⟩,
    ⟨0xFF, 0xF7, .sysExEnd⟩,
    ⟨0xF8, 0xF8, .realtime⟩ ]

/-- Is `b` in the row? -/
def ByteRow.holds (row : ByteRow) (b : Byte) : Bool := b &&& row.mask == row.pattern

/-- The class of a byte: its row in R81's table. Every byte has exactly one row, so the last arm is
never taken. -/
def classifyByte (b : Byte) : ByteClass :=
  match byteRows.find? (fun row => row.holds b) with
  | some row => row.cls
  | none => .realtime

/-- The `byte8` operation a byte stands for. Total: no byte value is illegal (R87). -/
def decodeByte (b : Byte) : Instr :=
  match classifyByte b with
  | .data => .data (dataValue b)
  | .stNoteOff => .stNoteOff (channelOf b)
  | .stNoteOn => .stNoteOn (channelOf b)
  | .stPolyPressure => .stPolyPressure (channelOf b)
  | .stControlChange => .stControlChange (channelOf b)
  | .stProgramChange => .stProgramChange (channelOf b)
  | .stChannelPressure => .stChannelPressure (channelOf b)
  | .stPitchBend => .stPitchBend (channelOf b)
  | .sysExStart => .sysExStart
  | .sysF1 => .sysF1
  | .sysF2 => .sysF2
  | .sysF3 => .sysF3
  | .sysF4 => .sysF4
  | .sysF5 => .sysF5
  | .sysF6 => .sysF6
  | .sysExEnd => .sysExEnd
  | .realtime => .realtime (realtimeSelector b)

/-! ## Event words -/

/-- Why a word is no operation. -/
inductive DecodeError
  /-- Bit 15 or bit 7 of an event word is set: data1 and data2 have 7 bits (log 15). -/
  | eventBitSet
  /-- The status of an event word is no two-parameter channel status: no such event is emitted
  (R122, R140). -/
  | notAnEventStatus
  /-- No strobe is driven: the step performs no operation. -/
  | noStrobe
deriving DecidableEq, Repr

/-- The `event24` row of an emitted message (R141, R142, and the rows' conditions). -/
def decodeEvent (mode : NoteOnMode) (m : ChannelMessage) : Except DecodeError Instr :=
  if isTwoParamStatus m.status then
    match mode with
    | .general =>
      if m.status.extractLsb' 4 4 = 9 then
        if m.data2 = 0 then .ok (.noteOffGeneral9nV0 (channelOf m.status) m.data1)
        else .ok (.noteOnGeneral (channelOf m.status) m.data1 m.data2)
      else if m.status.extractLsb' 4 4 = 8 then
        .ok (.noteOffGeneral8n (channelOf m.status) m.data1 m.data2)
      else if m.status.extractLsb' 5 3 = 5 then
        .ok (.ignoreGeneralAnBn (m.status.extractLsb' 0 5) m.data1 m.data2)
      else .ok (.ignoreGeneralEn (channelOf m.status) m.data1 m.data2)
    | .reference =>
      if m.status = refNoteOnStatus then .ok (.noteOnReference m.data1 m.data2)
      else .ok (.noteOffReference (m.status.extractLsb' 0 7) m.data1 m.data2)
  else .error .notAnEventStatus

/-! ## The three formats -/

/-- A word in one of the three formats of the opcode table. -/
inductive Code
  /-- An input byte. -/
  | byte8 (b : Byte)
  /-- An event word. -/
  | event24 (w : BitVec 24)
  /-- The strobes `{reset, tick, byte_strobe}` as bits 2 to 0, with the step's `byte_in`. -/
  | strobe3 (v : BitVec 3) (byteIn : Byte)
deriving DecidableEq, Repr

/-- The operations of one step, in the order they are performed: RESET excludes the others (R35),
TICK comes before BYTE (R36). -/
def decodeStep (i : StepInput) : List Instr :=
  if i.reset then [.reset]
  else (if i.tick then [.tick] else []) ++ (if i.byteStrobe then [.byte i.byteIn] else [])

/-- The strobe vector as the signals of a step. -/
def inputOfStrobes (v : BitVec 3) (byteIn : Byte) : StepInput :=
  ⟨v.getLsbD 2, v.getLsbD 1, v.getLsbD 0, byteIn⟩

/-- The decoder, total on every word of every format. The event rows depend on NOTE_ON_MODE. A
strobe word with both tick and byte_strobe stands for two operations; this answers the first, and
`decodeStep` gives both. -/
def decode (mode : NoteOnMode) : Code → Except DecodeError Instr
  | .byte8 b => .ok (decodeByte b)
  | .event24 w =>
    if w.getLsbD 15 || w.getLsbD 7 then .error .eventBitSet else decodeEvent mode (messageOfWord w)
  | .strobe3 v byteIn =>
    match decodeStep (inputOfStrobes v byteIn) with
    | [] => .error .noStrobe
    | i :: _ => .ok i

/-! ## The encoder -/

/-- The word of an operation, from the match and field columns of its row. -/
def encode : Instr → Code
  | .data v => .byte8 (0#1 ++ v)
  | .stNoteOff c => .byte8 (0x8#4 ++ c)
  | .stNoteOn c => .byte8 (0x9#4 ++ c)
  | .stPolyPressure c => .byte8 (0xA#4 ++ c)
  | .stControlChange c => .byte8 (0xB#4 ++ c)
  | .stProgramChange c => .byte8 (0xC#4 ++ c)
  | .stChannelPressure c => .byte8 (0xD#4 ++ c)
  | .stPitchBend c => .byte8 (0xE#4 ++ c)
  | .sysExStart => .byte8 0xF0
  | .sysF1 => .byte8 0xF1
  | .sysF2 => .byte8 0xF2
  | .sysF3 => .byte8 0xF3
  | .sysF4 => .byte8 0xF4
  | .sysF5 => .byte8 0xF5
  | .sysF6 => .byte8 0xF6
  | .sysExEnd => .byte8 0xF7
  | .realtime r => .byte8 (0x1F#5 ++ r)
  | .noteOnGeneral c n v => .event24 (eventWord ⟨0x9#4 ++ c, n, v⟩)
  | .noteOffGeneral9nV0 c n => .event24 (eventWord ⟨0x9#4 ++ c, n, 0⟩)
  | .noteOffGeneral8n c n v => .event24 (eventWord ⟨0x8#4 ++ c, n, v⟩)
  | .ignoreGeneralAnBn k n v => .event24 (eventWord ⟨0x5#3 ++ k, n, v⟩)
  | .ignoreGeneralEn c n v => .event24 (eventWord ⟨0xE#4 ++ c, n, v⟩)
  | .noteOnReference n v => .event24 (eventWord ⟨0x9B, n, v⟩)
  | .noteOffReference k n v => .event24 (eventWord ⟨1#1 ++ k, n, v⟩)
  | .tick => .strobe3 0b010 0
  | .reset => .strobe3 0b100 0
  | .byte b => .strobe3 0b001 b

/-! ## Table words -/

/-- The word a row of the opcode table stands for, from its bits alone. The rows of the formats
`byte8` and `strobe3` both take one byte, and a table word does not say which format it is in. A word
below 8 bits wide, or a byte from 1 to 7, is read as a strobe vector; every other byte as an input
byte. In an event word bits 15 and 7 are left out, as no row's mask fixes them (log 11). -/
def codeOfTableWord (nbits w : Nat) : Option Code :=
  if nbits < 8 then some (.strobe3 (BitVec.ofNat 3 w) 0)
  else if nbits = 8 then
    if w < 8 ∧ w ≠ 0 then some (.strobe3 (BitVec.ofNat 3 w) 0) else some (.byte8 (BitVec.ofNat 8 w))
  else if nbits = 24 then some (.event24 (eventWord (messageOfWord (BitVec.ofNat 24 w))))
  else none

/-- The operation the decoder reads from a row's word. Two event rows of the two modes share words,
which NOTE_ON_MODE tells apart and no bit of the word does: the answer is that of GENERAL, the mode at
reset (log 11). -/
def decodeTableWord (nbits w : Nat) : Option Instr :=
  match codeOfTableWord nbits w with
  | some c =>
    match decode .general c with
    | .ok i => some i
    | .error _ => none
  | none => none

end Sys2Proof
end

