-- ==== Sys2Proof/Machine/NoteTable.lean ====
section
/-! DEFINITION. The default contents of NOTE_FREQ (42_synthesizer.md R170) and the default parameters (00_scope.md R5 to R11). -/

namespace Sys2Proof.Machine

/-- The default table of R170, entries 0 to 63. -/
def defaultNoteFreqLow : List Nat :=
  [0, 0, 0, 0, 0, 0, 0, 0] ++
  [0, 0, 0, 0, 16, 17, 18, 19] ++
  [21, 22, 23, 24, 26, 28, 29, 31] ++
  [33, 35, 37, 39, 41, 44, 46, 49] ++
  [52, 55, 58, 62, 65, 69, 73, 78] ++
  [82, 87, 92, 98, 104, 110, 117, 123] ++
  [131, 139, 147, 156, 165, 175, 185, 196] ++
  [208, 220, 233, 247, 262, 277, 294, 311]

/-- The default table of R170, entries 64 to 127. -/
def defaultNoteFreqHigh : List Nat :=
  [330, 349, 370, 392, 415, 440, 466, 494] ++
  [523, 554, 587, 622, 659, 698, 740, 784] ++
  [831, 880, 932, 988, 1047, 1109, 1175, 1245] ++
  [1319, 1397, 1480, 1568, 1661, 1760, 1865, 1976] ++
  [2093, 2217, 2349, 2489, 2637, 2794, 2960, 3136] ++
  [3322, 3520, 3729, 3951, 4186, 4435, 4699, 4978] ++
  [5274, 5588, 5920, 6272, 6645, 7040, 7459, 7902] ++
  [8372, 8870, 9397, 9956, 10548, 11175, 11840, 12544]

/-- The default `NOTE_FREQ` (R170, D15; log 13). -/
def defaultNoteFreq : List Nat := defaultNoteFreqLow ++ defaultNoteFreqHigh

/-- The default parameters are legal (R5, R6, R7, R11). -/
theorem defaultParams_legal : paramsLegal 4 22050 16 defaultNoteFreq = true := by decide +kernel

/-- The default parameters: N = 4, FS = 22050, PHASE_BITS = 16, GENERAL (R5, R6, R7, R9, R11). -/
def defaultParams : Params :=
  { n := 4, fs := 22050, phaseBits := 16, noteOnMode := .general, noteFreq := defaultNoteFreq,
    legal := defaultParams_legal }

end Sys2Proof.Machine
end

