-- ==== Sys2Proof/Machine/State.lean ====
section
/-! DEFINITION. The machine's whole state as plain data (10_state.md), the reasons a step can stop (there are none on this hardware), and the state after reset (70_reset_and_hazards.md R220). -/

namespace Sys2Proof.Machine

/-- `DSTATE` (R20): exactly one of seven states, so code 7 cannot be built (U1). -/
inductive DState
  /-- Idle. -/
  | idle
  /-- AwaitingOneParam. -/
  | a1
  /-- HoldingOneParam. -/
  | h1
  /-- AwaitingFirstOfTwoParams. -/
  | a2f
  /-- AwaitingSecondOfTwoParams. -/
  | a2s
  /-- HoldingTwoParams. -/
  | h2
  /-- InSystemExclusive. -/
  | sysex
deriving DecidableEq, Repr

/-- A voice slot (R24). -/
structure Slot where
  note   : Data7
  active : Bool
  amp    : BitVec 16
deriving DecidableEq, Repr

/-- The reset value of a slot (R24), also what a note-off writes (R144). -/
def Slot.free : Slot := ⟨0, false, 0⟩

/-- The state of the core. `cfg` and `inputs` are the model's own: the construction-time parameters,
which no operation writes (log 1), and what the agents present in the coming steps (log 2). -/
structure State where
  /-- The parameters of R5 to R11. -/
  cfg    : Params
  /-- DSTATE (R20). -/
  dstate : DState
  /-- STATUS (R21). -/
  status : Byte
  /-- DATA1 (R22). -/
  data1  : Data7
  /-- DATA2 (R23). -/
  data2  : Data7
  /-- POOL, slot 0 first (R25). -/
  pool   : List Slot
  /-- PHASE (R28). -/
  phase  : Nat
  /-- The event port of the last step (R37). -/
  evt    : Option ChannelMessage
  /-- frame[0], frame[1], … (R38). -/
  frame  : List Sample
  /-- mix_sum (R40). -/
  mixSum : Int
  /-- mono (R39). -/
  mono   : Sample
  /-- What the agents present in the coming steps, the next step first. -/
  inputs : List StepInput
deriving DecidableEq, Repr

/-- The machine never faults (60_exceptions.md R200, R204): this type has no constructor, so no step
can answer a fault. Safe: a claim about faults holds because none can be built. -/
inductive Fault
deriving DecidableEq, Repr

/-- Why the model gives an operation no meaning. The core refuses nothing (R200). -/
inductive Refusal
  /-- Raised only by an arm of `exec` whose operation has no meaning yet. Safe: the model stops. No arm
  uses it. -/
  | notModelled (mnemonic : String)
deriving DecidableEq, Repr

/-- The reset values of 10_state.md section 6 for a core with parameters `cfg`, with `inputs` still to
come (R220). -/
def State.initial (cfg : Params) (inputs : List StepInput) : State :=
  { cfg := cfg, dstate := .idle, status := 0x00, data1 := 0, data2 := 0,
    pool := List.replicate cfg.n Slot.free, phase := 0,
    evt := none, frame := List.replicate cfg.n 0, mixSum := 0, mono := 0,
    inputs := inputs }

/-- The machine right after reset: the reset values, with the default parameters and nothing presented
yet (log 1, log 2). -/
def State.reset : State := State.initial defaultParams []

end Sys2Proof.Machine
end

