-- ==== Sys2Proof/Machine/Ops.lean ====
section
/-! DEFINITION. The named operations on the stores and registers: the pool and table primitives (R61, R62), the event output (R37), the status latch (R21), and the step's inputs (R32 to R36).

The core has no byte-addressed memory (R60), no exceptions and no trap return (R200, R204, R205), so there is no memory access and no exception entry here. -/

namespace Sys2Proof.Machine

/-- `PoolRead(j)`: the whole record of slot j (R62). Every caller's j is below N. -/
def poolRead (s : State) (j : Nat) : Slot := s.pool.getD j Slot.free

/-- `PoolWrite(j, r)`: replace the whole record of slot j (R62). -/
def poolWrite (j : Nat) (r : Slot) (s : State) : State := { s with pool := s.pool.set j r }

/-- `FREQ(n)`: entry n of NOTE_FREQ, in Hz (R61). A 7-bit index is always inside the table. -/
def freq (cfg : Params) (n : Data7) : Nat := cfg.noteFreq.getD n.toNat 0

/-- `emit(ev)`: drive the event output for this step (R37). -/
def emit (ev : Option ChannelMessage) (s : State) : State := { s with evt := ev }

/-- A status byte in 0x80..0xF7: `STATUS <- b; DSTATE <- next; ev <- None` (R21, R102 to R116). -/
def latchStatus (b : Byte) (next : DState) (s : State) : State :=
  emit none { s with status := b, dstate := next }

/-- `DATA1 <- v; DSTATE <- A2S; ev <- None` (R121, R123). -/
def storeData1 (v : Data7) (s : State) : State := emit none { s with data1 := v, dstate := .a2s }

/-- The signals of the coming step: what the agents present, or no strobe at all (log 2). -/
def nextInput (s : State) : StepInput := s.inputs.headD StepInput.idle

/-- The start of a step: its signals are consumed, and the event output of the step before ends. In a
step that performs no BYTE the event output is "no event" (R37, R227; log 7). -/
def takeInput (s : State) : State := emit none { s with inputs := s.inputs.tail }

/-- Set the machine up so that its next step runs the operation of a table word (log 11). A byte or a
strobe vector becomes the next step's signals. An event word is what the decoder emits when it takes
the message's last data byte, so the decoder is put where that byte comes next. -/
def presentTableWord (s : State) : Option Code → State
  | some (.byte8 b) => { s with inputs := ⟨false, false, true, b⟩ :: s.inputs }
  | some (.strobe3 v byteIn) => { s with inputs := inputOfStrobes v byteIn :: s.inputs }
  | some (.event24 w) =>
    { s with
      dstate := .a2s, status := (messageOfWord w).status, data1 := (messageOfWord w).data1,
      inputs := ⟨false, false, true, 0#1 ++ (messageOfWord w).data2⟩ :: s.inputs }
  | none => s

end Sys2Proof.Machine
end

