-- ==== Sys2Proof/Machine/Flags.lean ====
section
/-! DEFINITION. The core's Boolean state and outputs (R31). It has no condition codes: its flags are the `active` bits of the pool and evt_valid. -/

namespace Sys2Proof.Machine

/-- A free slot: its `active` bit is 0 (R24). -/
def Slot.isFree (r : Slot) : Bool := !r.active

/-- An active slot that holds note `n` (R143, R144). -/
def Slot.holdsNote (n : Data7) (r : Slot) : Bool := r.active && r.note == n

/-- `evt_valid` (R37). -/
def evtValid (s : State) : Bool := s.evt.isSome

/-- `voice_active[j]`, the observation copy of an `active` bit (R42). -/
def voiceActive (s : State) (j : Nat) : Bool := (poolRead s j).active

end Sys2Proof.Machine
end

