-- ==== Sys2Proof/Machine/Allocator.lean ====
section
/-! DEFINITION. The voice allocator (41_allocator.md): classification (R141, R142), the operations NOTE_ON, NOTE_OFF and IGNORE (R143 to R145), ALLOC (R140), and the meanings of the event24 rows. -/

namespace Sys2Proof.Machine

/-- The allocator's three classes (R140). -/
inductive EventClass
  | noteOn | noteOff | ignore
deriving DecidableEq, Repr

/-- R141, NOTE_ON_MODE = GENERAL. The channel nibble is not read. -/
def classifyGeneral (st : Byte) (d2 : Data7) : EventClass :=
  if st.extractLsb' 4 4 = 9 then (if d2 = 0 then .noteOff else .noteOn)
  else if st.extractLsb' 4 4 = 8 then .noteOff
  else .ignore

/-- R142, NOTE_ON_MODE = REFERENCE: the whole byte is compared, and the velocity is not read. -/
def classifyReference (st : Byte) : EventClass :=
  if st = refNoteOnStatus then .noteOn else .noteOff

/-- `CLASSIFY(NOTE_ON_MODE, s, d2)` (R140). -/
def classify (mode : NoteOnMode) (st : Byte) (d2 : Data7) : EventClass :=
  match mode with
  | .general => classifyGeneral st d2
  | .reference => classifyReference st

/-- NOTE_ON(n, v) (R143): the duplicate test covers the whole pool (C4), then the lowest free slot is
taken, and with no free slot the event is dropped. -/
def noteOn (n v : Data7) (s : State) : State :=
  if s.pool.any (Slot.holdsNote n) then s
  else
    match s.pool.findIdx? Slot.isFree with
    | some k => poolWrite k ⟨n, true, amplitude v⟩ s
    | none => s

/-- NOTE_OFF(n) (R144): the lowest active slot that holds `n` becomes {0, 0, 0} (C3). -/
def noteOff (n : Data7) (s : State) : State :=
  match s.pool.findIdx? (Slot.holdsNote n) with
  | some k => poolWrite k Slot.free s
  | none => s

/-- ALLOC(s, d1, d2) (R140). -/
def alloc (m : ChannelMessage) (s : State) : State :=
  match classify s.cfg.noteOnMode m.status m.data2 with
  | .noteOn => noteOn m.data1 m.data2 s
  | .noteOff => noteOff m.data1 s
  | .ignore => s

/-! ## The event24 rows

Each meaning is what the allocator does with the row's event word under the core's NOTE_ON_MODE. Under
the mode and the condition the row names, that is the row's operation (log 5). -/

/-- NOTE_ON (GENERAL) (R141, R143). -/
def execNoteOnGeneral (c : Channel) (n v : Data7) (s : State) : Host.Outcome State Fault Refusal :=
  .next (alloc ⟨statusByte 0x9 c, n, v⟩ s)

/-- NOTE_OFF (GENERAL, 9n v=0) (R141, R144). -/
def execNoteOffGeneral9nV0 (c : Channel) (n : Data7) (s : State) : Host.Outcome State Fault Refusal :=
  .next (alloc ⟨statusByte 0x9 c, n, 0⟩ s)

/-- NOTE_OFF (GENERAL, 8n) (R141, R144). -/
def execNoteOffGeneral8n (c : Channel) (n v : Data7) (s : State) : Host.Outcome State Fault Refusal :=
  .next (alloc ⟨statusByte 0x8 c, n, v⟩ s)

/-- IGNORE (GENERAL, An/Bn) (R141, R145). -/
def execIgnoreGeneralAnBn (k : BitVec 5) (n v : Data7) (s : State) : Host.Outcome State Fault Refusal :=
  .next (alloc ⟨0x5#3 ++ k, n, v⟩ s)

/-- IGNORE (GENERAL, En) (R141, R145). -/
def execIgnoreGeneralEn (c : Channel) (n v : Data7) (s : State) : Host.Outcome State Fault Refusal :=
  .next (alloc ⟨statusByte 0xE c, n, v⟩ s)

/-- NOTE_ON (REFERENCE) (R142, R143). -/
def execNoteOnReference (n v : Data7) (s : State) : Host.Outcome State Fault Refusal :=
  .next (alloc ⟨refNoteOnStatus, n, v⟩ s)

/-- NOTE_OFF (REFERENCE) (R142, R144). -/
def execNoteOffReference (k : BitVec 7) (n v : Data7) (s : State) : Host.Outcome State Fault Refusal :=
  .next (alloc ⟨1#1 ++ k, n, v⟩ s)

end Sys2Proof.Machine
end

