-- ==== Sys2Proof/Machine/Decoder.lean ====
section
/-! DEFINITION. The BYTE step (40_decoder.md): the meanings of the byte8 rows (R101 to R124) and of BYTE (R100). Each is the whole step of a byte of that class, the allocator's half included. -/

namespace Sys2Proof.Machine

/-! ## Real-time bytes -/

/-- REALTIME (R101): no register is written, no event. -/
def execRealtime (_r : BitVec 3) (s : State) : Host.Outcome State Fault Refusal := .next (emit none s)

/-! ## System message bytes -/

/-- SYS_EX_START (R102). -/
def execSysExStart (s : State) : Host.Outcome State Fault Refusal := .next (latchStatus 0xF0 .sysex s)

/-- SYS_F1 (R103). -/
def execSysF1 (s : State) : Host.Outcome State Fault Refusal := .next (latchStatus 0xF1 .a1 s)

/-- SYS_F2 (R104). -/
def execSysF2 (s : State) : Host.Outcome State Fault Refusal := .next (latchStatus 0xF2 .a2f s)

/-- SYS_F3 (R105). -/
def execSysF3 (s : State) : Host.Outcome State Fault Refusal := .next (latchStatus 0xF3 .a1 s)

/-- SYS_F4 (R106). -/
def execSysF4 (s : State) : Host.Outcome State Fault Refusal := .next (latchStatus 0xF4 .idle s)

/-- SYS_F5 (R107). -/
def execSysF5 (s : State) : Host.Outcome State Fault Refusal := .next (latchStatus 0xF5 .idle s)

/-- SYS_F6 (R108). -/
def execSysF6 (s : State) : Host.Outcome State Fault Refusal := .next (latchStatus 0xF6 .idle s)

/-- SYS_EX_END (R109): from every state, not only from SYSEX. -/
def execSysExEnd (s : State) : Host.Outcome State Fault Refusal := .next (latchStatus 0xF7 .idle s)

/-! ## Channel status bytes -/

/-- ST_NOTE_OFF (R110). -/
def execStNoteOff (c : Channel) (s : State) : Host.Outcome State Fault Refusal :=
  .next (latchStatus (statusByte 0x8 c) .a2f s)

/-- ST_NOTE_ON (R111). -/
def execStNoteOn (c : Channel) (s : State) : Host.Outcome State Fault Refusal :=
  .next (latchStatus (statusByte 0x9 c) .a2f s)

/-- ST_POLY_PRESSURE (R112). -/
def execStPolyPressure (c : Channel) (s : State) : Host.Outcome State Fault Refusal :=
  .next (latchStatus (statusByte 0xA c) .a2f s)

/-- ST_CONTROL_CHANGE (R113). -/
def execStControlChange (c : Channel) (s : State) : Host.Outcome State Fault Refusal :=
  .next (latchStatus (statusByte 0xB c) .a2f s)

/-- ST_PROGRAM_CHANGE (R114). -/
def execStProgramChange (c : Channel) (s : State) : Host.Outcome State Fault Refusal :=
  .next (latchStatus (statusByte 0xC c) .a1 s)

/-- ST_CHANNEL_PRESSURE (R115). -/
def execStChannelPressure (c : Channel) (s : State) : Host.Outcome State Fault Refusal :=
  .next (latchStatus (statusByte 0xD c) .a1 s)

/-- ST_PITCH_BEND (R116). -/
def execStPitchBend (c : Channel) (s : State) : Host.Outcome State Fault Refusal :=
  .next (latchStatus (statusByte 0xE c) .a2f s)

/-! ## Data bytes -/

/-- DATA in AwaitingSecondOfTwoParams (R122): the message is complete. Under a channel status it is
emitted and the allocator takes it in the same step (R100, R140); under 0xF2 nothing is emitted. -/
def completeMessage (v : Data7) (s : State) : State :=
  let s' := { s with data2 := v, dstate := .h2 }
  if isChannelStatus s.status then
    alloc ⟨s.status, s.data1, v⟩ (emit (some ⟨s.status, s.data1, v⟩) s')
  else emit none s'

/-- The step of a data byte with value `v`, by decoder state (R117). -/
def dataByte (v : Data7) (s : State) : State :=
  match s.dstate with
  | .idle => emit none s                          -- R118
  | .a1 => emit none { s with dstate := .h1 }     -- R119
  | .h1 => emit none s                            -- R120
  | .a2f => storeData1 v s                        -- R121
  | .a2s => completeMessage v s                   -- R122
  | .h2 => storeData1 v s                         -- R123
  | .sysex => emit none s                         -- R124

/-- DATA (R117 to R124). -/
def execData (v : Data7) (s : State) : Host.Outcome State Fault Refusal := .next (dataByte v s)

/-! ## The BYTE operation -/

/-- BYTE(b) (R100): classify the byte, then the class's rule, then the allocator if the rule emitted an
event. -/
def execByte (b : Byte) (s : State) : Host.Outcome State Fault Refusal :=
  match classifyByte b with
  | .data => execData (dataValue b) s
  | .stNoteOff => execStNoteOff (channelOf b) s
  | .stNoteOn => execStNoteOn (channelOf b) s
  | .stPolyPressure => execStPolyPressure (channelOf b) s
  | .stControlChange => execStControlChange (channelOf b) s
  | .stProgramChange => execStProgramChange (channelOf b) s
  | .stChannelPressure => execStChannelPressure (channelOf b) s
  | .stPitchBend => execStPitchBend (channelOf b) s
  | .sysExStart => execSysExStart s
  | .sysF1 => execSysF1 s
  | .sysF2 => execSysF2 s
  | .sysF3 => execSysF3 s
  | .sysF4 => execSysF4 s
  | .sysF5 => execSysF5 s
  | .sysF6 => execSysF6 s
  | .sysExEnd => execSysExEnd s
  | .realtime => execRealtime (realtimeSelector b) s

end Sys2Proof.Machine
end

