-- ==== Sys2Proof/Machine/ResetOp.lean ====
section
/-! DEFINITION. The RESET operation (70_reset_and_hazards.md R220). -/

namespace Sys2Proof.Machine

/-- The state after a RESET: every piece of state at its reset value. The parameters are not state and
are kept; what the agents present later is theirs and is kept (log 18). -/
def resetState (s : State) : State := State.initial s.cfg s.inputs

/-- RESET (R220). -/
def execReset (s : State) : Host.Outcome State Fault Refusal := .next (resetState s)

end Sys2Proof.Machine
end

