-- ==== Sys2Proof/Machine/Osc.lean ====
section
/-! DEFINITION. The oscillator OSC_EXACT of 42_synthesizer.md R173, computed with integers only.

R173 defines `trunc(a · sin(2π · f · p / FS))` over the reals. Here the argument is reduced exactly
to the first quadrant, sine is enclosed at growing precision (Machin's formula for π, the Taylor
series for sine), and the enclosure is refined until only one integer part is possible. The bound on
the number of refinements is an algebraic separation bound: a value `a · sin(π r / FS)` that is no
integer keeps a distance from every integer that depends on `a` and `FS` alone. So the result is
exact for every amplitude, frequency, phase and sample rate (log 3). -/

namespace Sys2Proof.Machine

/-- `2^P · arctan(1/x)` by the first `K` terms of its series, each rounded down. -/
def atanInv (P x : Nat) : Nat → Int
  | 0 => 0
  | k + 1 => atanInv P x k + (-1) ^ k * ((2 ^ P / (x ^ (2 * k + 1) * (2 * k + 1)) : Nat) : Int)

/-- `2^P · π` by Machin's formula, off by at most `5 P + 40`. -/
def piScaled (P : Nat) : Int :=
  16 * atanInv P 5 (P / 4 + 1) - 4 * atanInv P 239 (P / 4 + 1)

/-- The `i`-th term of `2^P · sin(X / 2^P)`, without its sign, each step rounded down. -/
def sinTerm (P X : Nat) : Nat → Nat
  | 0 => X
  | i + 1 => sinTerm P X i * X ^ 2 / (2 ^ (2 * P) * ((2 * i + 2) * (2 * i + 3)))

/-- The first `K` terms of the series of `2^P · sin(X / 2^P)`. -/
def sinSeries (P X : Nat) : Nat → Int
  | 0 => 0
  | k + 1 => sinSeries P X k + (-1) ^ k * ((sinTerm P X k : Nat) : Int)

/-- `2^P · sin(π r / fs)` for `2 r ≤ fs`, off by less than `sinError P`. -/
def sinScaled (fs r P : Nat) : Int :=
  sinSeries P ((piScaled P).toNat * r / fs) (P / 4 + 4)

/-- The error bound of `sinScaled` at precision `P`. -/
def sinError (P : Nat) : Nat := 4 * P + 64

/-- Refine until the enclosure of `a · sin(π r / fs)` holds one integer part only. When the fuel is
used up the enclosure is narrower than the separation bound, so the value is the integer above. -/
def magnitudeLoop (fs a r : Nat) : Nat → Nat → Int
  | 0, P => a * (sinScaled fs r P + sinError P) / 2 ^ P
  | fuel + 1, P =>
    let hi : Int := a * (sinScaled fs r P + sinError P) / 2 ^ P
    if a * (sinScaled fs r P - sinError P) / 2 ^ P = hi then hi
    else magnitudeLoop fs a r fuel (2 * P)

/-- The number of doublings of the precision after which the separation bound decides. -/
def magnitudeFuel (fs a : Nat) : Nat :=
  Nat.log2 (4 * fs * (Nat.log2 (4 * a + 2) + 1)) + 1

/-- `⌊a · sin(π r / fs)⌋` for `2 r ≤ fs`. The first three cases are the angles 0, π/2 and π/6, where
the sine is 0, 1 and 1/2 exactly. -/
def magnitude (fs a r : Nat) : Int :=
  if r = 0 then 0
  else if 2 * r = fs then a
  else if 6 * r = fs then (a / 2 : Nat)
  else magnitudeLoop fs a r (magnitudeFuel fs a) 64

/-- R173: `OSC_EXACT(a, f, p) = trunc(a · sin(2π · f · p / FS))`, as a mathematical integer. The
turn `f · p / FS` is reduced modulo 1, then to a half turn with the sign of sine, then to a quarter
turn. -/
def oscExact (fs a f p : Nat) : Int :=
  let k := f * p % fs
  let h := if 2 * k ≤ fs then k else fs - k
  let r := if 4 * h ≤ fs then 2 * h else fs - 2 * h
  if 2 * k ≤ fs then magnitude fs a r else - magnitude fs a r

end Sys2Proof.Machine
end

