-- ==== Sys2Proof/Machine/Synth.lean ====
section
/-! DEFINITION. The TICK step (42_synthesizer.md): the channel samples (R172, R173), the frame, its sum and its down-mix (R175 to R177), the phase counter (R178), and batches of ticks (R183). -/

namespace Sys2Proof.Machine

/-- R173: the integer sample as int16. A value that int16 cannot hold is a free value (log 4); no slot
reachable from reset gives one (R27). -/
def narrowSample (a f p : Nat) (x : Int) : Sample :=
  if -32768 ≤ x ∧ x ≤ 32767 then BitVec.ofInt 16 x else Config.sampleBeyondInt16 a f p

/-- The sample of one slot at phase `p` (R171, R172): it reads the amplitude and the note's frequency,
not the `active` bit. -/
def slotSample (cfg : Params) (p : Nat) (r : Slot) : Sample :=
  narrowSample r.amp.toNat (freq cfg r.note) p (oscExact cfg.fs r.amp.toNat (freq cfg r.note) p)

/-- The frame: one sample per slot, slot 0 first (R175). -/
def frameOf (cfg : Params) (p : Nat) (pool : List Slot) : List Sample := pool.map (slotSample cfg p)

/-- `S = s[0] + … + s[N-1]`, exactly (R176). -/
def mixOf (frame : List Sample) : Int := (frame.map BitVec.toInt).sum

/-- `S div N`, rounded toward zero, as int16 (R177). -/
def monoOf (n : Nat) (total : Int) : Sample := BitVec.ofInt 16 (total.tdiv n)

/-- `(PHASE + 1) mod 2^PHASE_BITS` (R178). -/
def nextPhase (cfg : Params) (p : Nat) : Nat := (p + 1) % 2 ^ cfg.phaseBits

/-- The state after a TICK (R171): every sample uses the phase from before the advance. -/
def tickState (s : State) : State :=
  let frame := frameOf s.cfg s.phase s.pool
  { s with
    frame := frame, mixSum := mixOf frame, mono := monoOf s.cfg.n (mixOf frame),
    phase := nextPhase s.cfg s.phase }

/-- TICK (R171). -/
def execTick (s : State) : Host.Outcome State Fault Refusal := .next (tickState s)

/-- `nextSamples(count)` (R183): `count` TICK steps in a row, with no BYTE between them, and their
frames in order. -/
def nextSamples : Nat → State → List (List Sample) × State
  | 0, s => ([], s)
  | count + 1, s =>
    let s' := tickState s
    let rest := nextSamples count s'
    (s'.frame :: rest.1, rest.2)

end Sys2Proof.Machine
end

