-- ==== Sys2Proof/Machine/Dispatch.lean ====
section
/-! DEFINITION. One arm per operation: its meaning. -/

namespace Sys2Proof.Machine

def exec (i : Instr) (s : State) : Host.Outcome State Fault Refusal :=
  match i with
  | .data v => Sys2Proof.Machine.execData v s
  | .stNoteOff c => Sys2Proof.Machine.execStNoteOff c s
  | .stNoteOn c => Sys2Proof.Machine.execStNoteOn c s
  | .stPolyPressure c => Sys2Proof.Machine.execStPolyPressure c s
  | .stControlChange c => Sys2Proof.Machine.execStControlChange c s
  | .stProgramChange c => Sys2Proof.Machine.execStProgramChange c s
  | .stChannelPressure c => Sys2Proof.Machine.execStChannelPressure c s
  | .stPitchBend c => Sys2Proof.Machine.execStPitchBend c s
  | .sysExStart => Sys2Proof.Machine.execSysExStart s
  | .sysF1 => Sys2Proof.Machine.execSysF1 s
  | .sysF2 => Sys2Proof.Machine.execSysF2 s
  | .sysF3 => Sys2Proof.Machine.execSysF3 s
  | .sysF4 => Sys2Proof.Machine.execSysF4 s
  | .sysF5 => Sys2Proof.Machine.execSysF5 s
  | .sysF6 => Sys2Proof.Machine.execSysF6 s
  | .sysExEnd => Sys2Proof.Machine.execSysExEnd s
  | .realtime r => Sys2Proof.Machine.execRealtime r s
  | .noteOnGeneral c n v => Sys2Proof.Machine.execNoteOnGeneral c n v s
  | .noteOffGeneral9nV0 c n => Sys2Proof.Machine.execNoteOffGeneral9nV0 c n s
  | .noteOffGeneral8n c n v => Sys2Proof.Machine.execNoteOffGeneral8n c n v s
  | .ignoreGeneralAnBn k n v => Sys2Proof.Machine.execIgnoreGeneralAnBn k n v s
  | .ignoreGeneralEn c n v => Sys2Proof.Machine.execIgnoreGeneralEn c n v s
  | .noteOnReference n v => Sys2Proof.Machine.execNoteOnReference n v s
  | .noteOffReference k n v => Sys2Proof.Machine.execNoteOffReference k n v s
  | .tick => Sys2Proof.Machine.execTick s
  | .reset => Sys2Proof.Machine.execReset s
  | .byte b => Sys2Proof.Machine.execByte b s

end Sys2Proof.Machine
end

