-- ==== Sys2Proof/Machine/Step.lean ====
section
/-! DEFINITION. One step of the core (00_scope.md R14, 10_state.md R33 to R36): the operations the step's strobes select, in order. -/

namespace Sys2Proof.Machine

/-- Perform the operations of one step in order. -/
def runInstrs : List Instr → State → Host.Outcome State Fault Refusal
  | [], s => .next s
  | i :: rest, s =>
    match exec i s with
    | .next s' => runInstrs rest s'
    | .fault f => .fault f
    | .refused r => .refused r

/-- One step: take the step's signals, then perform RESET, or TICK, or BYTE, or TICK then BYTE, or
nothing. The core never halts (R231): with nothing presented the state is kept (R211). -/
def step (s : State) : Host.Outcome State Fault Refusal :=
  runInstrs (decodeStep (nextInput s)) (takeInput s)

/-- The state whose very next step runs the operation of a table word (log 11). -/
def State.withFetchWord (s : State) (nbits w : Nat) : State :=
  presentTableWord s (codeOfTableWord nbits w)

end Sys2Proof.Machine
end

