-- ==== Sys2Proof/Machine/Ports.lean ====
section
/-! DEFINITION. The output signals (10_state.md R32, R37 to R42), the byte form of a frame (20_memory.md R64), and the observation of a run (70_reset_and_hazards.md R231). Reading an output has no side effect: each is a function of the state. -/

namespace Sys2Proof.Machine

/-- The 3-bit encoding of DSTATE (R20, D24). -/
def DState.code : DState → BitVec 3
  | .idle => 0
  | .a1 => 1
  | .h1 => 2
  | .a2f => 3
  | .a2s => 4
  | .h2 => 5
  | .sysex => 6

/-- `evt_status`: 0 when there is no event (R37). -/
def evtStatus (s : State) : Byte := (s.evt.map ChannelMessage.status).getD 0

/-- `evt_data1` (R37). -/
def evtData1 (s : State) : Data7 := (s.evt.map ChannelMessage.data1).getD 0

/-- `evt_data2` (R37). -/
def evtData2 (s : State) : Data7 := (s.evt.map ChannelMessage.data2).getD 0

/-- `frame[j]` (R38), a port for j below N. -/
def framePort (s : State) (j : Nat) : Sample := s.frame.getD j 0

/-- The width of `mix_sum`: 16 + ceil(log2 N) bits (R32). -/
def mixSumWidth (n : Nat) : Nat := 16 + Nat.clog 2 n

/-- A parameter on a 32-bit port (R32); a value 32 bits cannot hold is free (log 9). -/
def port32 (v : Nat) : BitVec 32 := if v < 2 ^ 32 then BitVec.ofNat 32 v else Config.portBeyond32 v

/-- `cap_sample_rate` (R41). -/
def capSampleRate (s : State) : BitVec 32 := port32 s.cfg.fs

/-- `cap_channels` (R41). -/
def capChannels (s : State) : BitVec 32 := port32 s.cfg.n

/-- `cap_bits` (R41). -/
def capBits (_s : State) : BitVec 8 := BitVec.ofNat 8 sampleBits

/-- `voice_note[j]` (R42). -/
def voiceNote (s : State) (j : Nat) : Data7 := (poolRead s j).note

/-- `voice_amp[j]` (R42). -/
def voiceAmp (s : State) (j : Nat) : BitVec 16 := (poolRead s j).amp

/-- The two bytes of a sample, the low byte first (R64). -/
def sampleBytes (x : Sample) : List Byte := [x.extractLsb' 0 8, x.extractLsb' 8 8]

/-- A frame as a byte sequence: channel 0 first, each sample little-endian (R64). -/
def frameBytes (frame : List Sample) : List Byte := frame.flatMap sampleBytes

/-- Every output signal of R32, for the step that led to a state. -/
structure Outputs where
  evtValid      : Bool
  evtStatus     : Byte
  evtData1      : Data7
  evtData2      : Data7
  frame         : List Sample
  mixSum        : Int
  mono          : Sample
  capSampleRate : BitVec 32
  capChannels   : BitVec 32
  capBits       : BitVec 8
  voices        : List (Data7 × Bool × BitVec 16)
deriving DecidableEq, Repr

/-- The outputs in a state. -/
def outputs (s : State) : Outputs :=
  { evtValid := evtValid s, evtStatus := evtStatus s, evtData1 := evtData1 s, evtData2 := evtData2 s,
    frame := s.frame, mixSum := s.mixSum, mono := s.mono,
    capSampleRate := capSampleRate s, capChannels := capChannels s, capBits := capBits s,
    voices := (List.range s.cfg.n).map (fun j => (voiceNote s j, voiceActive s j, voiceAmp s j)) }

/-- The observation of a run of `k` steps: the outputs after each step, and the last state (R231). -/
def observeRun : Nat → State → List Outputs × State
  | 0, s => ([], s)
  | k + 1, s =>
    match step s with
    | .next t => (outputs t :: (observeRun k t).1, (observeRun k t).2)
    | .fault _ => ([], s)
    | .refused _ => ([], s)

end Sys2Proof.Machine
end

