-- ==== Sys2Proof/Machine/Program.lean ====
section
/-! DEFINITION. The program notation of 30_encoding.md R90: each line as the step inputs it stands for. -/

namespace Sys2Proof.Machine

/-- A step that performs one BYTE. -/
def byteInput (b : Byte) : StepInput := ⟨false, false, true, b⟩

/-- A step that performs one TICK. -/
def tickInput : StepInput := ⟨false, true, false, 0⟩

/-- A step that performs one RESET. -/
def resetInput : StepInput := ⟨true, false, false, 0⟩

/-- A line of R90: the four operations and the seven pseudo-operations. Their conditions on the operands
are the operands' widths, but for `rt`, whose condition is `Line.ok`. -/
inductive Line
  /-- `BYTE b1, b2, …` -/
  | byte (bs : List Byte)
  /-- `TICK` -/
  | tick
  /-- `TICKS k` -/
  | ticks (k : Nat)
  /-- `RESET` -/
  | reset
  /-- `NOTE_ON c, n, v` -/
  | noteOn (c : Channel) (n v : Data7)
  /-- `NOTE_OFF c, n, v` -/
  | noteOff (c : Channel) (n v : Data7)
  /-- `REF_ON n, v` -/
  | refOn (n v : Data7)
  /-- `RUN d1, d2` -/
  | run (d1 d2 : Data7)
  /-- `RUN1 d` -/
  | run1 (d : Data7)
  /-- `SYSEX d1, …, dk` -/
  | sysex (ds : List Data7)
  /-- `RT r` -/
  | rt (r : Byte)
deriving DecidableEq, Repr

/-- R90's condition on `RT r`: r in 0xF8..0xFF and r ≠ 0xFE. -/
def Line.ok : Line → Bool
  | .rt r => decide (0xF8 ≤ r.toNat) && r != 0xFE
  | .byte _ => true
  | .tick => true
  | .ticks _ => true
  | .reset => true
  | .noteOn _ _ _ => true
  | .noteOff _ _ _ => true
  | .refOn _ _ => true
  | .run _ _ => true
  | .run1 _ => true
  | .sysex _ => true

/-- A 7-bit value as a data byte (R83). -/
def dataByteOf (v : Data7) : Byte := 0#1 ++ v

/-- The bytes a pseudo-operation or a BYTE line stands for; a strobe line has none. -/
def Line.bytes : Line → List Byte
  | .byte bs => bs
  | .tick => []
  | .ticks _ => []
  | .reset => []
  | .noteOn c n v => [0x90 + c.setWidth 8, dataByteOf n, dataByteOf v]
  | .noteOff c n v => [0x80 + c.setWidth 8, dataByteOf n, dataByteOf v]
  | .refOn n v => [0x9B, dataByteOf n, dataByteOf v]
  | .run d1 d2 => [dataByteOf d1, dataByteOf d2]
  | .run1 d => [dataByteOf d]
  | .sysex ds => 0xF0 :: ds.map dataByteOf ++ [0xF7]
  | .rt r => [r]

/-- The steps of a line. -/
def Line.inputs : Line → List StepInput
  | .tick => [tickInput]
  | .ticks k => List.replicate k tickInput
  | .reset => [resetInput]
  | .byte bs => bs.map byteInput
  | .noteOn c n v => (Line.noteOn c n v).bytes.map byteInput
  | .noteOff c n v => (Line.noteOff c n v).bytes.map byteInput
  | .refOn n v => (Line.refOn n v).bytes.map byteInput
  | .run d1 d2 => (Line.run d1 d2).bytes.map byteInput
  | .run1 d => (Line.run1 d).bytes.map byteInput
  | .sysex ds => (Line.sysex ds).bytes.map byteInput
  | .rt r => [byteInput r]

/-- The steps of a list of lines, in order. -/
def programInputs (lines : List Line) : List StepInput := lines.flatMap Line.inputs

end Sys2Proof.Machine
end

