-- ==== Sys2Proof/Safety.lean ====
section
/-! DEFINITION. What holds of every state a run reaches (10_state.md R26, R27, R28; 40_decoder.md R122 corner cases), and the duties of the host (70_reset_and_hazards.md R224, R225), on which no rule of the core depends. -/

namespace Sys2Proof

open Machine

/-- The statuses DSTATE goes with (R84, R122): which status byte led to a decoder state. -/
def statusFits : DState → Byte → Bool
  | .idle, st => st == 0x00 || (decide (0xF4 ≤ st.toNat) && decide (st.toNat ≤ 0xF7))
  | .a1, st => isOneParamStatus st
  | .h1, st => isOneParamStatus st
  | .a2f, st => isTwoParamStatus st || st == 0xF2
  | .a2s, st => isTwoParamStatus st || st == 0xF2
  | .h2, st => isTwoParamStatus st || st == 0xF2
  | .sysex, st => st == 0xF0

/-- Slot values of reachable states (R27): the amplitude is 256·v, and a free slot is {0, 0, 0}. -/
def slotFits (r : Slot) : Bool :=
  decide (r.amp.toNat % 256 = 0) && decide (r.amp.toNat ≤ 32512) &&
    (r.active || (r.note == 0 && r.amp == 0))

/-- No two slots are active with one note (R26). -/
def notesDistinct (pool : List Slot) : Prop :=
  pool.Pairwise (fun a b => a.active = true → b.active = true → a.note ≠ b.note)

/-- The invariant of the core: it holds after RESET and every step keeps it. -/
structure CoreInv (s : State) : Prop where
  /-- The pool has N slots (R25). -/
  poolLength  : s.pool.length = s.cfg.n
  /-- At most one active voice per note (R26). -/
  notes       : notesDistinct s.pool
  /-- Reachable slot values (R27). -/
  slots       : ∀ r ∈ s.pool, slotFits r = true
  /-- PHASE has PHASE_BITS bits (R28). -/
  phaseRange  : s.phase < 2 ^ s.cfg.phaseBits
  /-- STATUS is a status that leads to DSTATE (R84, R122). -/
  statusState : statusFits s.dstate s.status = true
  /-- An event on the port is the message just completed, under a two-parameter channel status (R122,
  R140). -/
  event       : ∀ m, s.evt = some m →
    isTwoParamStatus m.status = true ∧ m = ⟨s.status, s.data1, s.data2⟩ ∧ s.dstate = .h2
  /-- The frame has N channels (R175). -/
  frameLength : s.frame.length = s.cfg.n
  /-- Every sample is in -32512..32512 (R173). -/
  frameRange  : ∀ x ∈ s.frame, -32512 ≤ x.toInt ∧ x.toInt ≤ 32512
  /-- mix_sum is the exact sum of the frame (R176). -/
  mixExact    : s.mixSum = (s.frame.map BitVec.toInt).sum
  /-- mono is the mean rounded toward zero (R177). -/
  monoExact   : s.mono.toInt = s.mixSum.tdiv s.cfg.n

/-- The feeder's duty not to present 0xFE (R224). Breaking it changes nothing (R88). -/
def feederFiltersActiveSensing (inputs : List StepInput) : Bool :=
  inputs.all (fun i => !(i.byteStrobe && i.byteIn == 0xFE))

/-- The RESET driver's duty: a RESET comes before the first BYTE or TICK (R223, R224). -/
def resetComesFirst : List StepInput → Bool
  | [] => true
  | i :: rest => if i.reset then true else if i.tick || i.byteStrobe then false else resetComesFirst rest

/-- The duties of R224 that a list of step inputs can show. "Every received byte exactly once, in
arrival order" is about what the feeder received, which the core cannot see; the consumer's duties
(R225) are about time and about reading the ports, which have no effect on the core. -/
def hostKeepsDuties (inputs : List StepInput) : Bool :=
  feederFiltersActiveSensing inputs && resetComesFirst inputs

end Sys2Proof
end

