-- ==== Sys2Proof/Certificates/Slice0/Obligations.lean ====
section
/-! DEFINITION. The statements for the provers, from the numbered rules of spec/. Each docstring names the rule it formalises. -/

namespace Sys2Proof.Machine

/-! ## What the statements are written with: the spec's own tables and real-valued formulas -/

/-- `trunc(x)`: the real x rounded toward zero (00_scope.md section 5). -/
noncomputable def truncReal (x : ℝ) : ℤ := if 0 ≤ x then ⌊x⌋ else ⌈x⌉

/-- `a · sin(2π · f · p / FS)` over the reals (R173). -/
noncomputable def sineProduct (fs a f p : ℕ) : ℝ := a * Real.sin (2 * Real.pi * f * p / fs)

/-- R125's table: the next DSTATE, row by column. -/
def tableNext (d : DState) (b : Byte) : DState :=
  if b.toNat < 0x80 then
    match d with
    | .idle => .idle
    | .a1 => .h1
    | .h1 => .h1
    | .a2f => .a2s
    | .a2s => .h2
    | .h2 => .a2s
    | .sysex => .sysex
  else if b.toNat ≤ 0xBF ∨ (0xE0 ≤ b.toNat ∧ b.toNat ≤ 0xEF) then .a2f
  else if b.toNat ≤ 0xDF then .a1
  else if b = 0xF0 then .sysex
  else if b = 0xF1 ∨ b = 0xF3 then .a1
  else if b = 0xF2 then .a2f
  else if b.toNat ≤ 0xF7 then .idle
  else d

/-- R125's `EV`: only a data byte in A2S, only under a channel status. -/
def tableEvent (s : State) (b : Byte) : Option ChannelMessage :=
  if b.toNat < 0x80 ∧ s.dstate = .a2s ∧ 0x80 ≤ s.status.toNat ∧ s.status.toNat ≤ 0xEF then
    some ⟨s.status, s.data1, b.extractLsb' 0 7⟩
  else none

/-- A sequence of BYTE steps: the events they emit, in order, and the last state. -/
def feed : List Byte → State → List ChannelMessage × State
  | [], s => ([], s)
  | b :: rest, s =>
    match exec (.byte b) s with
    | .next t => (t.evt.toList ++ (feed rest t).1, (feed rest t).2)
    | .fault _ => ([], s)
    | .refused _ => ([], s)

/-- The state in which the allocator takes a message that a data byte `v` completes (R100, R122). -/
def emitting (v : Data7) (s : State) : State :=
  { s with data2 := v, dstate := .h2, evt := some ⟨s.status, s.data1, v⟩ }

/-- The slots of a pool that are active with note `n`. -/
def sounds (n : Data7) (s : State) : Prop := ∃ r ∈ s.pool, r.active = true ∧ r.note = n

/-- A NOTE_ON row of the note `n` and velocity `v` under the mode of its row (R141, R142). -/
def isNoteOnRow (i : Instr) (mode : NoteOnMode) (n v : Data7) : Prop :=
  (mode = .general ∧ v ≠ 0 ∧ ∃ c, i = .noteOnGeneral c n v) ∨
  (mode = .reference ∧ i = .noteOnReference n v)

/-- A NOTE_OFF row of the note `n` under the mode of its row (R141, R142). -/
def isNoteOffRow (i : Instr) (mode : NoteOnMode) (n : Data7) : Prop :=
  (mode = .general ∧ ∃ c, i = .noteOffGeneral9nV0 c n) ∨
  (mode = .general ∧ ∃ c v, i = .noteOffGeneral8n c n v) ∨
  (mode = .reference ∧ ∃ k v, i = .noteOffReference k n v ∧ i.wf = true)

/-- The slot the allocator writes for a message, with the expressions of NOTE_ON and NOTE_OFF (R143 to
R145): none for a duplicate, a full pool, an absent note and class IGNORE. -/
def writtenSlot (s : State) (m : ChannelMessage) : Option Nat :=
  match classify s.cfg.noteOnMode m.status m.data2 with
  | .noteOn => if s.pool.any (Slot.holdsNote m.data1) then none else s.pool.findIdx? Slot.isFree
  | .noteOff => s.pool.findIdx? (Slot.holdsNote m.data1)
  | .ignore => none

/-- The rows of the opcode table of format `event24`. -/
def isEventRow (i : Instr) : Prop := i.mode.isSome = true

end Sys2Proof.Machine

open Sys2Proof Sys2Proof.Machine

/-! ## Reset and the shape of a step -/

/-- R220: RESET writes every piece of state to its reset value, does not touch the configuration, and is
idempotent; a TICK after it outputs zeros and leaves PHASE at 1. -/
def Obligations.ResetWritesResetValues : Prop :=
  ∀ s : State, ∃ t, exec .reset s = .next t ∧
    t.dstate = .idle ∧ t.status = 0x00 ∧ t.data1 = 0 ∧ t.data2 = 0 ∧
    t.pool = List.replicate s.cfg.n ⟨0, false, 0⟩ ∧ t.phase = 0 ∧
    t.evt = none ∧ t.frame = List.replicate s.cfg.n 0 ∧ t.mixSum = 0 ∧ t.mono = 0 ∧
    t.cfg = s.cfg ∧ exec .reset t = .next t ∧
    ∃ u, exec .tick t = .next u ∧ u.frame = List.replicate s.cfg.n 0 ∧ u.phase = 1

/-- R222: after RESET the pool is free, data bytes before the first status byte change nothing, and the
first TICK outputs zeros and leaves PHASE at 1. From any state with a free pool, a step leaves the pool
free unless its event is a note-on, and a TICK of that step outputs zeros. -/
def Obligations.AfterResetSilentUntilANoteOn : Prop :=
  (∀ s : State, ∃ t, exec .reset s = .next t ∧ (∀ r ∈ t.pool, r = Slot.free) ∧
    (∀ ds : List Data7, feed (ds.map (fun v => 0#1 ++ v)) t = ([], t)) ∧
    ∃ u, exec .tick t = .next u ∧ (∀ x ∈ u.frame, x = 0) ∧ u.mixSum = 0 ∧ u.mono = 0 ∧ u.phase = 1) ∧
  ∀ s : State, (∀ r ∈ s.pool, r = Slot.free) → ∃ t, step s = .next t ∧
    ((∀ m, t.evt = some m → classify s.cfg.noteOnMode m.status m.data2 ≠ .noteOn) →
      ∀ r ∈ t.pool, r = Slot.free) ∧
    ((nextInput s).tick = true → (∀ x ∈ t.frame, x = 0) ∧ t.mixSum = 0 ∧ t.mono = 0)

/-- R35, R221: a step with reset = 1 performs RESET alone, whatever the other strobes hold; the byte and
the tick of that step are lost. The input list is the model's choice (log 2), and RESET keeps it (log 18). -/
def Obligations.ResetStepExcludesByteAndTick : Prop :=
  ∀ (s : State) (i : StepInput) (rest : List StepInput), s.inputs = i :: rest → i.reset = true →
    step s = .next (State.initial s.cfg rest)

/-- R33, R34, R35, R36: the step performs what its strobes select, in the order TICK then BYTE, with the
event output of the step before cleared. The input list is the model's choice (log 2). -/
def Obligations.StepRunsTheStrobedOperations : Prop :=
  ∀ s : State,
    (s.inputs = [] → step s = .next { s with evt := none }) ∧
    ∀ (i : StepInput) (rest : List StepInput), s.inputs = i :: rest →
      let s0 : State := { s with inputs := rest, evt := none }
      (i.reset = true → step s = exec .reset s0) ∧
      (i.reset = false → i.tick = true → i.byteStrobe = false → step s = exec .tick s0) ∧
      (i.reset = false → i.tick = false → i.byteStrobe = true → step s = exec (.byte i.byteIn) s0) ∧
      (i.reset = false → i.tick = true → i.byteStrobe = true →
        ∃ u, exec .tick s0 = .next u ∧ step s = exec (.byte i.byteIn) u) ∧
      (i.reset = false → i.tick = false → i.byteStrobe = false → step s = .next s0)

/-- R36: in one step with both strobes the TICK reads the pool as it was before the step, and the BYTE's
pool update is what the next TICK sees. The order is the spec's own decision D3. -/
def Obligations.TickThenByteInOneStep : Prop :=
  ∀ (s : State) (b : Byte) (rest : List StepInput),
    s.inputs = ⟨false, true, true, b⟩ :: ⟨false, true, false, 0⟩ :: rest →
    ∃ t u w, step s = .next t ∧ exec (.byte b) s = .next u ∧ step t = .next w ∧
      t.frame = frameOf s.cfg s.phase s.pool ∧ t.pool = u.pool ∧ t.evt = u.evt ∧
      w.frame = frameOf s.cfg (nextPhase s.cfg s.phase) u.pool

/-- R200: no operation raises an exception, signals an error or refuses its input. -/
def Obligations.NoOperationStops : Prop :=
  (∀ (i : Instr) (s : State), ∃ t, exec i s = .next t) ∧ ∀ s : State, ∃ t, step s = .next t

/-- R13: no operation and no step changes a parameter. -/
def Obligations.ParametersNeverChange : Prop :=
  (∀ (i : Instr) (s : State), ∃ t, exec i s = .next t ∧ t.cfg = s.cfg) ∧
    ∀ s : State, ∃ t, step s = .next t ∧ t.cfg = s.cfg

/-- R25, R28, R31, R38 to R40, R126: without a BYTE or a RESET a step keeps the decoder and the pool;
without a TICK or a RESET it keeps the phase and the sample outputs; without a BYTE it has no event. The
input list is the model's choice (log 2). -/
def Obligations.StateChangesOnlyByItsOperations : Prop :=
  ∀ (s : State) (i : StepInput) (rest : List StepInput), s.inputs = i :: rest → i.reset = false →
    ∃ t, step s = .next t ∧ t.inputs = rest ∧
      (i.byteStrobe = false → t.dstate = s.dstate ∧ t.status = s.status ∧ t.data1 = s.data1 ∧
        t.data2 = s.data2 ∧ t.pool = s.pool ∧ t.evt = none) ∧
      (i.tick = false → t.phase = s.phase ∧ t.frame = s.frame ∧ t.mixSum = s.mixSum ∧ t.mono = s.mono)

/-- Under the model's own reading of table words (log 11, DESIGN CHOICE), the table word of an input byte
decodes to the byte's operation and the next step runs it. That reading leaves out the bytes 1 to 7,
which it takes as strobes; StepRunsTheStrobedOperations and ByteRunsItsClass cover every byte. -/
def Obligations.FetchedByteRuns : Prop :=
  ∀ (s : State) (b : Byte), b.toNat = 0 ∨ 8 ≤ b.toNat →
    decodeTableWord 8 b.toNat = some (decodeByte b) ∧
    step (s.withFetchWord 8 b.toNat) = exec (decodeByte b) { s with evt := none }

/-! ## Encoding -/

/-- R81: the rows of the byte-class table are disjoint and cover all 256 values. -/
def Obligations.ByteClassesPartitionTheBytes : Prop :=
  ∀ b : Byte, ∃ row, byteRows.filter (fun r => r.holds b) = [row] ∧ classifyByte b = row.cls

/-- Every operation is decoded from its encoded word, with every operand at every value, under the mode
its row names. -/
def Obligations.DecodeOfEncode : Prop :=
  ∀ (i : Instr) (mode : NoteOnMode), i.wf = true → (i.mode = none ∨ i.mode = some mode) →
    decode mode (encode i) = .ok i

/-- A byte and an accepted event word have one meaning each: encoding what they decode to gives them
back. That decode refuses an event word with bit 15 or 7 set, or with a status that is not
two-parameter, is the model's inference (log 15, DEDUCED), and the event half rests on it. -/
def Obligations.EncodeOfDecode : Prop :=
  (∀ (mode : NoteOnMode) (b : Byte), ∃ i, decode mode (.byte8 b) = .ok i ∧ encode i = .byte8 b) ∧
  ∀ (mode : NoteOnMode) (w : BitVec 24) (i : Instr), decode mode (.event24 w) = .ok i →
    encode i = .event24 w ∧ i.wf = true ∧ i.mode = some mode

/-- Words written out from the table's bit patterns decode to their operations (R81 and the event and
strobe rows). -/
def Obligations.WrittenOutWordsDecode : Prop :=
  decodeByte 0b00111100 = .data 60 ∧ decodeByte 0b10000101 = .stNoteOff 5 ∧
  decodeByte 0b10011011 = .stNoteOn 11 ∧ decodeByte 0b11000111 = .stProgramChange 7 ∧
  decodeByte 0b11110010 = .sysF2 ∧ decodeByte 0b11111101 = .realtime 5 ∧
  decode .general (.event24 0b100110110011110001000000) = .ok (.noteOnGeneral 11 60 64) ∧
  decode .reference (.event24 0b100110110011110001000000) = .ok (.noteOnReference 60 64) ∧
  decode .general (.event24 0b100100000011110000000000) = .ok (.noteOffGeneral9nV0 0 60) ∧
  decode .general (.strobe3 0b100 0) = .ok .reset ∧ decode .general (.strobe3 0b010 0) = .ok .tick

/-! ## The decoder -/

/-- R101: a real-time byte writes no register and emits nothing, in any state. -/
def Obligations.RealtimeBytesHaveNoEffect : Prop :=
  ∀ (s : State) (r : BitVec 3), exec (.realtime r) s = .next { s with evt := none } ∧
    exec (.byte (0b11111#5 ++ r)) s = .next { s with evt := none }

/-- R102, R103, R105 to R109: each system status byte loads STATUS, goes to its state from every state,
emits nothing and writes nothing else. -/
def Obligations.SystemStatusBytesLatch : Prop :=
  ∀ s : State,
    exec .sysExStart s = .next { s with status := 0xF0, dstate := .sysex, evt := none } ∧
    exec .sysF1 s = .next { s with status := 0xF1, dstate := .a1, evt := none } ∧
    exec .sysF3 s = .next { s with status := 0xF3, dstate := .a1, evt := none } ∧
    exec .sysF4 s = .next { s with status := 0xF4, dstate := .idle, evt := none } ∧
    exec .sysF5 s = .next { s with status := 0xF5, dstate := .idle, evt := none } ∧
    exec .sysF6 s = .next { s with status := 0xF6, dstate := .idle, evt := none } ∧
    exec .sysExEnd s = .next { s with status := 0xF7, dstate := .idle, evt := none }

/-- R104, and R122 under STATUS = 0xF2: the byte latches 0xF2; its data bytes pass through A2F and A2S, no
event is emitted, and the pool is kept. -/
def Obligations.SongPositionEmitsNothing : Prop :=
  ∀ (s : State) (v w : Data7),
    exec .sysF2 s = .next { s with status := 0xF2, dstate := .a2f, evt := none } ∧
    ∀ t, exec .sysF2 s = .next t →
      exec (.data v) t = .next { s with status := 0xF2, dstate := .a2s, data1 := v, evt := none } ∧
      ∀ u, exec (.data v) t = .next u →
        exec (.data w) u = .next { s with status := 0xF2, dstate := .h2, data1 := v, data2 := w, evt := none }

/-- R110 to R116: each channel status byte loads STATUS with itself, goes to its state from every state,
emits nothing and writes nothing else. -/
def Obligations.ChannelStatusBytesLatch : Prop :=
  ∀ (s : State) (c : Channel),
    exec (.stNoteOff c) s = .next { s with status := 0x8#4 ++ c, dstate := .a2f, evt := none } ∧
    exec (.stNoteOn c) s = .next { s with status := 0x9#4 ++ c, dstate := .a2f, evt := none } ∧
    exec (.stPolyPressure c) s = .next { s with status := 0xA#4 ++ c, dstate := .a2f, evt := none } ∧
    exec (.stControlChange c) s = .next { s with status := 0xB#4 ++ c, dstate := .a2f, evt := none } ∧
    exec (.stProgramChange c) s = .next { s with status := 0xC#4 ++ c, dstate := .a1, evt := none } ∧
    exec (.stChannelPressure c) s = .next { s with status := 0xD#4 ++ c, dstate := .a1, evt := none } ∧
    exec (.stPitchBend c) s = .next { s with status := 0xE#4 ++ c, dstate := .a2f, evt := none }

/-- R121 and R123, with R118, R119, R120 and R124: a data byte by decoder state, but for A2S. That it is
absorbed in Idle and SYSEX, and not stored in A1 and H1, are the spec's own decisions D7 and D34. -/
def Obligations.DataBytesByState : Prop :=
  ∀ (s : State) (v : Data7),
    (s.dstate = .idle → exec (.data v) s = .next { s with evt := none }) ∧
    (s.dstate = .a1 → exec (.data v) s = .next { s with dstate := .h1, evt := none }) ∧
    (s.dstate = .h1 → exec (.data v) s = .next { s with evt := none }) ∧
    (s.dstate = .a2f → exec (.data v) s = .next { s with data1 := v, dstate := .a2s, evt := none }) ∧
    (s.dstate = .h2 → exec (.data v) s = .next { s with data1 := v, dstate := .a2s, evt := none }) ∧
    (s.dstate = .sysex → exec (.data v) s = .next { s with evt := none })

/-- R122: the second data byte of a message stores DATA2 and goes to H2. Under a channel status the
message is emitted and the allocator takes it in the same step; otherwise nothing is emitted. In a
state that meets the invariant, STATUS is then a two-parameter channel status or 0xF2. -/
def Obligations.SecondDataByteCompletesTheMessage : Prop :=
  ∀ (s : State) (v : Data7), s.dstate = .a2s →
    (0x80 ≤ s.status.toNat ∧ s.status.toNat ≤ 0xEF →
      exec (.data v) s = .next (alloc ⟨s.status, s.data1, v⟩
        { s with data2 := v, dstate := .h2, evt := some ⟨s.status, s.data1, v⟩ })) ∧
    (¬(0x80 ≤ s.status.toNat ∧ s.status.toNat ≤ 0xEF) →
      exec (.data v) s = .next { s with data2 := v, dstate := .h2, evt := none }) ∧
    (CoreInv s → isTwoParamStatus s.status = true ∨ s.status = 0xF2)

/-- R100: a BYTE runs the operation of its class, and never reads or writes PHASE. -/
def Obligations.ByteRunsItsClass : Prop :=
  ∀ (s : State) (b : Byte), exec (.byte b) s = exec (decodeByte b) s ∧
    ∃ t, exec (.byte b) s = .next t ∧ t.phase = s.phase ∧
      ∀ q, exec (.byte b) { s with phase := q } = .next { t with phase := q }

/-- R125: the whole transition table of the decoder. -/
def Obligations.DecoderTransitionTable : Prop :=
  ∀ (s : State) (b : Byte), ∃ t, exec (.byte b) s = .next t ∧
    t.dstate = tableNext s.dstate b ∧
    t.status = (if 0x80 ≤ b.toNat ∧ b.toNat ≤ 0xF7 then b else s.status) ∧
    t.data1 = (if b.toNat < 0x80 ∧ (s.dstate = .a2f ∨ s.dstate = .h2) then b.extractLsb' 0 7 else s.data1) ∧
    t.data2 = (if b.toNat < 0x80 ∧ s.dstate = .a2s then b.extractLsb' 0 7 else s.data2) ∧
    t.evt = tableEvent s b

/-- R128: after a status byte in 0x80..0xF7, DSTATE and STATUS are functions of the byte alone. -/
def Obligations.StatusByteResynchronises : Prop :=
  ∀ (s1 s2 : State) (b : Byte), 0x80 ≤ b.toNat → b.toNat ≤ 0xF7 →
    ∃ t1 t2, exec (.byte b) s1 = .next t1 ∧ exec (.byte b) s2 = .next t2 ∧
      t1.dstate = t2.dstate ∧ t1.status = t2.status

/-- R129: a two-parameter channel status, then data bytes, with real-time bytes placed anywhere, emits
one event per complete pair, in order, from every state; an odd last data byte waits in DATA1. -/
def Obligations.OneEventPerCompletePair : Prop :=
  ∀ (st : Byte) (pairs : List (Data7 × Data7)) (odd : Option Data7) (bytes : List Byte) (s : State),
    isTwoParamStatus st = true → pairs ≠ [] →
    bytes.filter (fun b => decide (b.toNat < 0xF8)) =
      st :: pairs.flatMap (fun p => [0#1 ++ p.1, 0#1 ++ p.2]) ++ (odd.map (fun d => 0#1 ++ d)).toList →
    (feed bytes s).1 = pairs.map (fun p => ⟨st, p.1, p.2⟩) ∧
    ∀ d, odd = some d → (feed bytes s).2.dstate = .a2s ∧ (feed bytes s).2.data1 = d

/-- R86: real-time bytes placed anywhere in a byte sequence change neither the events it emits nor the
state it leaves, but for the event port, which shows only the last step. -/
def Obligations.RealtimeInterleavingChangesNothing : Prop :=
  ∀ (bytes : List Byte) (s : State),
    (feed bytes s).1 = (feed (bytes.filter (fun b => decide (b.toNat < 0xF8))) s).1 ∧
    emit none (feed bytes s).2 = emit none (feed (bytes.filter (fun b => decide (b.toNat < 0xF8))) s).2

/-- R119, R120 and the corner cases of R103, R105, R114, R115: after a one-parameter status, any data
bytes lead to H1 and stay there, emit nothing, and keep DATA1, DATA2 and the pool. -/
def Obligations.OneParameterMessagesAreSilent : Prop :=
  ∀ (st : Byte) (d : Data7) (ds : List Data7) (s : State), isOneParamStatus st = true →
    (feed (st :: (d :: ds).map (fun v => 0#1 ++ v)) s).1 = [] ∧
    (feed (st :: (d :: ds).map (fun v => 0#1 ++ v)) s).2 =
      { s with status := st, dstate := .h1, evt := none }

/-! ## The allocator -/

/-- R141 and R142: the two classification tables, by ranges of the status. IGNORE, and a note-on of
velocity 0 under 0x9B, are the spec's own decisions D9 and D11. -/
def Obligations.ClassificationTables : Prop :=
  ∀ (st : Byte) (d2 : Data7), isTwoParamStatus st = true →
    classify .general st d2 =
      (if 0x90 ≤ st.toNat ∧ st.toNat ≤ 0x9F then (if d2.toNat = 0 then .noteOff else .noteOn)
       else if st.toNat ≤ 0x8F then .noteOff else .ignore) ∧
    classify .reference st d2 = (if st.toNat = 0x9B then .noteOn else .noteOff)

/-- R140 with the opcode table's event rows: a data byte that completes a channel message does what the
row of its event word does, and the row is well-formed and of the core's mode. That an event row is the
allocator's half of the step is the model's choice (log 5). -/
def Obligations.AllocatorRunsTheDecodedEventRow : Prop :=
  ∀ (s : State) (v : Data7), s.dstate = .a2s → isTwoParamStatus s.status = true →
    ∃ i, decode s.cfg.noteOnMode (.event24 (eventWord ⟨s.status, s.data1, v⟩)) = .ok i ∧
      i.wf = true ∧ i.mode = some s.cfg.noteOnMode ∧ exec (.data v) s = exec i (emitting v s)

/-- R143: a note-on of a sounding note changes nothing; otherwise it takes the lowest free slot; with no
free slot it changes nothing. -/
def Obligations.NoteOnTakesTheLowestFreeSlot : Prop :=
  ∀ (i : Instr) (s : State) (n v : Data7), isNoteOnRow i s.cfg.noteOnMode n v →
    (sounds n s → exec i s = .next s) ∧
    (¬sounds n s → ∀ (k : Nat) (r : Slot), s.pool[k]? = some r → r.active = false →
      (∀ j q, j < k → s.pool[j]? = some q → q.active = true) →
      exec i s = .next { s with pool := s.pool.set k ⟨n, true, amplitude v⟩ }) ∧
    ((∀ r ∈ s.pool, r.active = true) → exec i s = .next s)

/-- R144: a note-off frees the lowest active slot that holds the note, writing {0, 0, 0}, and changes
nothing where no active slot holds it. -/
def Obligations.NoteOffFreesTheMatchingSlot : Prop :=
  ∀ (i : Instr) (s : State) (n : Data7), isNoteOffRow i s.cfg.noteOnMode n →
    (¬sounds n s → exec i s = .next s) ∧
    ∀ (k : Nat) (r : Slot), s.pool[k]? = some r → r.active = true → r.note = n →
      (∀ j q, j < k → s.pool[j]? = some q → q.active = true → q.note ≠ n) →
      exec i s = .next { s with pool := s.pool.set k ⟨0, false, 0⟩ }

/-- R145: in GENERAL mode a message of class IGNORE leaves the pool unchanged, and the event stays on the
event port. The class is the spec's own decision D9. -/
def Obligations.IgnoredMessagesChangeNothing : Prop :=
  ∀ (s : State) (k : BitVec 5) (c : Channel) (n v : Data7), s.cfg.noteOnMode = .general →
    exec (.ignoreGeneralAnBn k n v) s = .next s ∧ exec (.ignoreGeneralEn c n v) s = .next s

/-- R146: AMP(v) = v × 256 as 16 bits, without overflow, at most 32512, and the same as v followed by
eight zero bits. -/
def Obligations.AmplitudeIsVelocityTimes256 : Prop :=
  ∀ v : Data7, (amplitude v).toNat = v.toNat * 256 ∧ (amplitude v).toNat ≤ 32512 ∧
    amplitude v = (v ++ 0#8).setWidth 16

/-- R151: a note-on of a note that is not active, with a free slot, followed by a note-off of it gives the
state back. -/
def Obligations.NoteOnThenNoteOffRestores : Prop :=
  ∀ (s : State) (on off : Instr) (n v : Data7), CoreInv s →
    isNoteOnRow on s.cfg.noteOnMode n v → isNoteOffRow off s.cfg.noteOnMode n →
    ¬sounds n s → (∃ r ∈ s.pool, r.active = false) →
    ∃ t, exec on s = .next t ∧ sounds n t ∧ exec off t = .next s

/-- R152: one BYTE step writes at most one slot, and none if it emitted no event. The slot is the
allocator's own: the lowest free one for a note-on, the lowest that holds the note for a note-off. A
duplicate, a full pool, an absent note and a message of class IGNORE write none. -/
def Obligations.ByteWritesAtMostOneSlot : Prop :=
  ∀ (s : State) (b : Byte), ∃ t, exec (.byte b) s = .next t ∧ t.pool.length = s.pool.length ∧
    (t.evt = none → t.pool = s.pool) ∧
    ∀ m, t.evt = some m →
      (writtenSlot s m = none → t.pool = s.pool) ∧
      ∀ k, writtenSlot s m = some k → k < s.pool.length ∧ ∀ j, j ≠ k → t.pool[j]? = s.pool[j]?

/-- The frame of the event rows: they change nothing but the pool (R72, R143, R144, R145). That they are
operations of their own is the model's choice (log 5). -/
def Obligations.EventRowsWriteOnlyThePool : Prop :=
  ∀ (i : Instr) (s : State), isEventRow i → ∃ t, exec i s = .next t ∧ t = { s with pool := t.pool }

/-- R229: an active voice stays as it is through every step but a RESET and a note-off of its note. -/
def Obligations.VoiceSoundsUntilItsNoteOff : Prop :=
  ∀ (s : State) (j : Nat) (r : Slot), s.pool[j]? = some r → r.active = true →
    (nextInput s).reset = false →
    ∃ t, step s = .next t ∧
      ((∀ m, t.evt = some m → m.data1 = r.note → classify s.cfg.noteOnMode m.status m.data2 ≠ .noteOff) →
        t.pool[j]? = some r)

/-! ## The synthesizer -/

/-- R173: the model's integer oscillator is OSC_EXACT, the truncated product of the amplitude and the
exact real sine. -/
def Obligations.OscillatorIsExact : Prop :=
  ∀ fs a f p : ℕ, 0 < fs → oscExact fs a f p = truncReal (sineProduct fs a f p)

/-- R174: the oscillator laws L1 to L4 and L6, for the model's oscillator (L5 is its type). -/
def Obligations.OscillatorLaws : Prop :=
  ∀ fs a f p : ℕ, 0 < fs →
    oscExact fs a 0 p = 0 ∧ oscExact fs 0 f p = 0 ∧ oscExact fs a f 0 = 0 ∧
    |oscExact fs a f p| ≤ a ∧ |(oscExact fs a f p : ℝ) - sineProduct fs a f p| < 1

/-- R173 at FS = 22050: the sample is exactly 0 when 11025 divides f·p. -/
def Obligations.OscillatorZeroCrossings : Prop :=
  ∀ a f p : ℕ, 11025 ∣ f * p → oscExact 22050 a f p = 0

/-- R171: a TICK outputs one sample per slot at the phase before the advance, the exact sum, the mean
rounded toward zero, and advances the phase; it writes nothing else. -/
def Obligations.TickComputesTheFrame : Prop :=
  ∀ s : State, ∃ t, exec .tick s = .next t ∧
    t.frame.length = s.pool.length ∧
    (∀ (j : Nat) (r : Slot), s.pool[j]? = some r → ∃ x, t.frame[j]? = some x ∧
      (-32768 ≤ oscExact s.cfg.fs r.amp.toNat (freq s.cfg r.note) s.phase →
        oscExact s.cfg.fs r.amp.toNat (freq s.cfg r.note) s.phase ≤ 32767 →
        x.toInt = oscExact s.cfg.fs r.amp.toNat (freq s.cfg r.note) s.phase)) ∧
    t.mixSum = (t.frame.map BitVec.toInt).sum ∧
    t.mono = BitVec.ofInt 16 (t.mixSum.tdiv s.cfg.n) ∧
    t.phase = (s.phase + 1) % 2 ^ s.cfg.phaseBits ∧
    t = { s with frame := t.frame, mixSum := t.mixSum, mono := t.mono, phase := t.phase }

/-- R171, R173, R175: in every state that meets the invariant, channel j of a TICK's frame is
`trunc(amp · sin(2π · FREQ(note) · PHASE / FS))` of slot j. -/
def Obligations.TickOutputsExactSineSamples : Prop :=
  ∀ s : State, CoreInv s → ∃ t, exec .tick s = .next t ∧ t.frame.length = s.cfg.n ∧
    ∀ (j : Nat) (r : Slot), s.pool[j]? = some r → ∃ x, t.frame[j]? = some x ∧
      x.toInt = truncReal (sineProduct s.cfg.fs r.amp.toNat (freq s.cfg r.note) s.phase)

/-- R176, R177: mix_sum fits its port and is at most 32512·N; mono is the mean rounded toward zero, at
most 32512; S = -7 with N = 4 gives -1. -/
def Obligations.MixAndMonoFitTheirPorts : Prop :=
  (∀ s : State, CoreInv s → ∃ t, exec .tick s = .next t ∧
    t.mixSum = (t.frame.map BitVec.toInt).sum ∧
    |t.mixSum| ≤ 32512 * s.cfg.n ∧
    -2 ^ (mixSumWidth s.cfg.n - 1) ≤ t.mixSum ∧ t.mixSum < 2 ^ (mixSumWidth s.cfg.n - 1) ∧
    t.mono.toInt = t.mixSum.tdiv s.cfg.n ∧ |t.mono.toInt| ≤ 32512) ∧
  (monoOf 4 (-7)).toInt = -1 ∧ mixSumWidth 4 = 18

/-- R178: PHASE advances by one per TICK modulo 2^PHASE_BITS, stays below it, and 65535 is followed by 0
at 16 bits. -/
def Obligations.PhaseAdvancesByOne : Prop :=
  (∀ s : State, ∃ t, exec .tick s = .next t ∧ t.phase = (s.phase + 1) % 2 ^ s.cfg.phaseBits) ∧
  ∀ s : State, s.cfg.phaseBits = 16 → s.phase = 65535 → ∃ t, exec .tick s = .next t ∧ t.phase = 0

/-- R179: the first TICK after RESET outputs zeros, whatever bytes came between and so whatever the pool
holds, and leaves PHASE = 1. -/
def Obligations.FirstTickAfterResetIsSilent : Prop :=
  ∀ (s : State) (bytes : List Byte), ∃ t u, exec .reset s = .next t ∧
    exec .tick (feed bytes t).2 = .next u ∧ (∀ x ∈ u.frame, x = 0) ∧ u.mixSum = 0 ∧ u.mono = 0 ∧ u.phase = 1

/-- R180: the outputs of a TICK are a function of PHASE and POOL (and of the parameters). -/
def Obligations.TickIsMemoryless : Prop :=
  ∀ s1 s2 : State, s1.cfg = s2.cfg → s1.phase = s2.phase → s1.pool = s2.pool →
    ∃ t1 t2, exec .tick s1 = .next t1 ∧ exec .tick s2 = .next t2 ∧
      t1.frame = t2.frame ∧ t1.mixSum = t2.mixSum ∧ t1.mono = t2.mono

/-- R181: with every slot inactive a TICK outputs zeros at any phase; a slot whose note is below 12 or
whose amplitude is 0 is silent in its channel. -/
def Obligations.SilentSlotsGiveZero : Prop :=
  (∀ s : State, CoreInv s → (∀ r ∈ s.pool, r.active = false) →
    ∃ t, exec .tick s = .next t ∧ (∀ x ∈ t.frame, x = 0) ∧ t.mixSum = 0 ∧ t.mono = 0) ∧
  ∀ (s : State) (j : Nat) (r : Slot), s.pool[j]? = some r → r.note.toNat < 12 ∨ r.amp = 0 →
    ∃ t, exec .tick s = .next t ∧ t.frame[j]? = some 0

/-- R182: with the pool held constant, 2^PHASE_BITS is a period of the outputs. -/
def Obligations.OutputsRepeatAfterTheModulus : Prop :=
  ∀ (s : State) (k : Nat), s.phase < 2 ^ s.cfg.phaseBits → 1 ≤ k →
    (nextSamples (2 ^ s.cfg.phaseBits + k) s).2.frame = (nextSamples k s).2.frame ∧
    (nextSamples (2 ^ s.cfg.phaseBits + k) s).2.mixSum = (nextSamples k s).2.mixSum ∧
    (nextSamples (2 ^ s.cfg.phaseBits + k) s).2.mono = (nextSamples k s).2.mono ∧
    (nextSamples (2 ^ s.cfg.phaseBits + k) s).2.phase = (nextSamples k s).2.phase

/-- R183: a batch of `count` is `count` TICK steps in a row, its result their frames in order, and a batch
of 0 performs no step. Reading a batch as ticks is the spec's own decision D17. -/
def Obligations.BatchIsTicksInARow : Prop :=
  ∀ s : State, nextSamples 0 s = ([], s) ∧
    (∀ count : Nat, ∃ t, exec .tick s = .next t ∧
      nextSamples (count + 1) s = (t.frame :: (nextSamples count t).1, (nextSamples count t).2)) ∧
    ∀ a b : Nat, nextSamples (a + b) s =
      ((nextSamples a s).1 ++ (nextSamples b (nextSamples a s).2).1, (nextSamples b (nextSamples a s).2).2)

/-- R72: a BYTE that does not write the pool commutes with a TICK. -/
def Obligations.TickAndByteCommute : Prop :=
  ∀ (s : State) (b : Byte), ∃ u, exec (.byte b) s = .next u ∧
    (u.pool = s.pool → ∃ t w, exec .tick s = .next t ∧ exec (.byte b) t = .next w ∧ exec .tick u = .next w)

/-- R60, R72, R209: a BYTE, and each of its classes, touches neither the phase nor the sample outputs; a
TICK touches neither the decoder nor the pool. The presented inputs are the model's own field (log 2). -/
def Obligations.FeederAndConsumerShareOnlyThePool : Prop :=
  (∀ (i : Instr) (s : State), i ≠ .tick → i ≠ .reset → ∃ t, exec i s = .next t ∧
    t.phase = s.phase ∧ t.frame = s.frame ∧ t.mixSum = s.mixSum ∧ t.mono = s.mono ∧ t.inputs = s.inputs) ∧
  ∀ s : State, ∃ t, exec .tick s = .next t ∧ t.dstate = s.dstate ∧ t.status = s.status ∧
    t.data1 = s.data1 ∧ t.data2 = s.data2 ∧ t.pool = s.pool

/-! ## Stores, ports and the table -/

/-- R61, R68: the index of a table read is always inside the table, and entries 0 to 11 are 0. -/
def Obligations.TableReadsAreInRange : Prop :=
  ∀ (cfg : Params) (n : Data7), cfg.noteFreq[n.toNat]? = some (freq cfg n) ∧ (n.toNat < 12 → freq cfg n = 0)

/-- R170: the default table is 440·2^((n-69)/12) rounded to the nearest integer, with entries 0 to 11
equal to 0. The contents are the spec's own default (D15, log 13). -/
def Obligations.DefaultTableIsEqualTempered : Prop :=
  defaultNoteFreq.length = 128 ∧ (∀ n, n < 12 → defaultNoteFreq.getD n 0 = 0) ∧
  ∀ n : ℕ, 12 ≤ n → n < 128 →
    ((defaultNoteFreq.getD n 0 : ℕ) : ℤ) = ⌊(440 : ℝ) * (2 : ℝ) ^ (((n : ℝ) - 69) / 12) + 1 / 2⌋

/-- R64: a frame as bytes is 2·N bytes, channel 0 first, the low byte of each sample first. The order is the
spec's own decision D14. -/
def Obligations.FrameBytesAreLittleEndian : Prop :=
  ∀ frame : List Sample, (frameBytes frame).length = 2 * frame.length ∧
    ∀ (j : Nat) (x : Sample), frame[j]? = some x →
      (frameBytes frame)[2 * j]? = some (x.extractLsb' 0 8) ∧
      (frameBytes frame)[2 * j + 1]? = some (x.extractLsb' 8 8)

/-- R41: the capability outputs are the constants FS, N and 16 (where 32 bits hold them, log 9), and no
step changes them. -/
def Obligations.CapabilityPortsAreConstant : Prop :=
  ∀ s : State, (s.cfg.fs < 2 ^ 32 → (capSampleRate s).toNat = s.cfg.fs) ∧
    (s.cfg.n < 2 ^ 32 → (capChannels s).toNat = s.cfg.n) ∧ (capBits s).toNat = 16 ∧
    ∃ t, step s = .next t ∧ capSampleRate t = capSampleRate s ∧ capChannels t = capChannels s ∧
      capBits t = capBits s

/-- R37 and R42: with no event the event fields are 0, with an event they are its fields, and the voice
ports show the pool. These ports are the spec's own decisions D31 and D36. -/
def Obligations.PortsShowTheEventAndThePool : Prop :=
  ∀ s : State,
    (s.evt = none → evtValid s = false ∧ evtStatus s = 0 ∧ evtData1 s = 0 ∧ evtData2 s = 0) ∧
    (∀ m, s.evt = some m →
      evtValid s = true ∧ evtStatus s = m.status ∧ evtData1 s = m.data1 ∧ evtData2 s = m.data2) ∧
    ∀ (j : Nat) (r : Slot), s.pool[j]? = some r →
      voiceNote s j = r.note ∧ voiceActive s j = r.active ∧ voiceAmp s j = r.amp

/-! ## The invariant -/

/-- The invariant holds after reset, and after the RESET operation from any state (R26, R27). -/
def Obligations.InvHoldsAfterReset : Prop :=
  CoreInv State.reset ∧ ∀ s : State, ∃ t, exec .reset s = .next t ∧ CoreInv t

/-- R26, R27, R28, R122, R175 to R177: every operation keeps the invariant. -/
def Obligations.EveryOperationKeepsInv : Prop :=
  ∀ (i : Instr) (s : State), CoreInv s → ∃ t, exec i s = .next t ∧ CoreInv t

/-- R26, R27 and the rest of the invariant: every step, with any signals, keeps it. -/
def Obligations.EveryStepKeepsInv : Prop :=
  ∀ s : State, CoreInv s → ∃ t, step s = .next t ∧ CoreInv t
end

