-- ==== Sys2Proof/Laws/State.lean ====
section
/-! SUPPORT. One lemma per field per update of the state, each by unfolding, so that no later proof unfolds a record update. -/

namespace Sys2Proof.Machine

/-! ## emit -/

@[simp] theorem emit_cfg (ev : Option ChannelMessage) (s : State) : (emit ev s).cfg = s.cfg := rfl
@[simp] theorem emit_dstate (ev : Option ChannelMessage) (s : State) : (emit ev s).dstate = s.dstate := rfl
@[simp] theorem emit_status (ev : Option ChannelMessage) (s : State) : (emit ev s).status = s.status := rfl
@[simp] theorem emit_data1 (ev : Option ChannelMessage) (s : State) : (emit ev s).data1 = s.data1 := rfl
@[simp] theorem emit_data2 (ev : Option ChannelMessage) (s : State) : (emit ev s).data2 = s.data2 := rfl
@[simp] theorem emit_pool (ev : Option ChannelMessage) (s : State) : (emit ev s).pool = s.pool := rfl
@[simp] theorem emit_phase (ev : Option ChannelMessage) (s : State) : (emit ev s).phase = s.phase := rfl
@[simp] theorem emit_evt (ev : Option ChannelMessage) (s : State) : (emit ev s).evt = ev := rfl
@[simp] theorem emit_frame (ev : Option ChannelMessage) (s : State) : (emit ev s).frame = s.frame := rfl
@[simp] theorem emit_mixSum (ev : Option ChannelMessage) (s : State) : (emit ev s).mixSum = s.mixSum := rfl
@[simp] theorem emit_mono (ev : Option ChannelMessage) (s : State) : (emit ev s).mono = s.mono := rfl
@[simp] theorem emit_inputs (ev : Option ChannelMessage) (s : State) : (emit ev s).inputs = s.inputs := rfl

/-! ## poolWrite -/

@[simp] theorem poolWrite_cfg (j : Nat) (r : Slot) (s : State) : (poolWrite j r s).cfg = s.cfg := rfl
@[simp] theorem poolWrite_dstate (j : Nat) (r : Slot) (s : State) : (poolWrite j r s).dstate = s.dstate := rfl
@[simp] theorem poolWrite_status (j : Nat) (r : Slot) (s : State) : (poolWrite j r s).status = s.status := rfl
@[simp] theorem poolWrite_data1 (j : Nat) (r : Slot) (s : State) : (poolWrite j r s).data1 = s.data1 := rfl
@[simp] theorem poolWrite_data2 (j : Nat) (r : Slot) (s : State) : (poolWrite j r s).data2 = s.data2 := rfl
@[simp] theorem poolWrite_pool (j : Nat) (r : Slot) (s : State) : (poolWrite j r s).pool = s.pool.set j r := rfl
@[simp] theorem poolWrite_phase (j : Nat) (r : Slot) (s : State) : (poolWrite j r s).phase = s.phase := rfl
@[simp] theorem poolWrite_evt (j : Nat) (r : Slot) (s : State) : (poolWrite j r s).evt = s.evt := rfl
@[simp] theorem poolWrite_frame (j : Nat) (r : Slot) (s : State) : (poolWrite j r s).frame = s.frame := rfl
@[simp] theorem poolWrite_mixSum (j : Nat) (r : Slot) (s : State) : (poolWrite j r s).mixSum = s.mixSum := rfl
@[simp] theorem poolWrite_mono (j : Nat) (r : Slot) (s : State) : (poolWrite j r s).mono = s.mono := rfl
@[simp] theorem poolWrite_inputs (j : Nat) (r : Slot) (s : State) : (poolWrite j r s).inputs = s.inputs := rfl

/-! ## latchStatus -/

@[simp] theorem latchStatus_cfg (b : Byte) (d : DState) (s : State) : (latchStatus b d s).cfg = s.cfg := rfl
@[simp] theorem latchStatus_dstate (b : Byte) (d : DState) (s : State) : (latchStatus b d s).dstate = d := rfl
@[simp] theorem latchStatus_status (b : Byte) (d : DState) (s : State) : (latchStatus b d s).status = b := rfl
@[simp] theorem latchStatus_data1 (b : Byte) (d : DState) (s : State) : (latchStatus b d s).data1 = s.data1 := rfl
@[simp] theorem latchStatus_data2 (b : Byte) (d : DState) (s : State) : (latchStatus b d s).data2 = s.data2 := rfl
@[simp] theorem latchStatus_pool (b : Byte) (d : DState) (s : State) : (latchStatus b d s).pool = s.pool := rfl
@[simp] theorem latchStatus_phase (b : Byte) (d : DState) (s : State) : (latchStatus b d s).phase = s.phase := rfl
@[simp] theorem latchStatus_evt (b : Byte) (d : DState) (s : State) : (latchStatus b d s).evt = none := rfl
@[simp] theorem latchStatus_frame (b : Byte) (d : DState) (s : State) : (latchStatus b d s).frame = s.frame := rfl
@[simp] theorem latchStatus_mixSum (b : Byte) (d : DState) (s : State) : (latchStatus b d s).mixSum = s.mixSum := rfl
@[simp] theorem latchStatus_mono (b : Byte) (d : DState) (s : State) : (latchStatus b d s).mono = s.mono := rfl
@[simp] theorem latchStatus_inputs (b : Byte) (d : DState) (s : State) : (latchStatus b d s).inputs = s.inputs := rfl

/-! ## storeData1 -/

@[simp] theorem storeData1_cfg (v : Data7) (s : State) : (storeData1 v s).cfg = s.cfg := rfl
@[simp] theorem storeData1_dstate (v : Data7) (s : State) : (storeData1 v s).dstate = .a2s := rfl
@[simp] theorem storeData1_status (v : Data7) (s : State) : (storeData1 v s).status = s.status := rfl
@[simp] theorem storeData1_data1 (v : Data7) (s : State) : (storeData1 v s).data1 = v := rfl
@[simp] theorem storeData1_data2 (v : Data7) (s : State) : (storeData1 v s).data2 = s.data2 := rfl
@[simp] theorem storeData1_pool (v : Data7) (s : State) : (storeData1 v s).pool = s.pool := rfl
@[simp] theorem storeData1_phase (v : Data7) (s : State) : (storeData1 v s).phase = s.phase := rfl
@[simp] theorem storeData1_evt (v : Data7) (s : State) : (storeData1 v s).evt = none := rfl
@[simp] theorem storeData1_frame (v : Data7) (s : State) : (storeData1 v s).frame = s.frame := rfl
@[simp] theorem storeData1_mixSum (v : Data7) (s : State) : (storeData1 v s).mixSum = s.mixSum := rfl
@[simp] theorem storeData1_mono (v : Data7) (s : State) : (storeData1 v s).mono = s.mono := rfl
@[simp] theorem storeData1_inputs (v : Data7) (s : State) : (storeData1 v s).inputs = s.inputs := rfl

/-! ## takeInput -/

@[simp] theorem takeInput_cfg (s : State) : (takeInput s).cfg = s.cfg := rfl
@[simp] theorem takeInput_dstate (s : State) : (takeInput s).dstate = s.dstate := rfl
@[simp] theorem takeInput_status (s : State) : (takeInput s).status = s.status := rfl
@[simp] theorem takeInput_data1 (s : State) : (takeInput s).data1 = s.data1 := rfl
@[simp] theorem takeInput_data2 (s : State) : (takeInput s).data2 = s.data2 := rfl
@[simp] theorem takeInput_pool (s : State) : (takeInput s).pool = s.pool := rfl
@[simp] theorem takeInput_phase (s : State) : (takeInput s).phase = s.phase := rfl
@[simp] theorem takeInput_evt (s : State) : (takeInput s).evt = none := rfl
@[simp] theorem takeInput_frame (s : State) : (takeInput s).frame = s.frame := rfl
@[simp] theorem takeInput_mixSum (s : State) : (takeInput s).mixSum = s.mixSum := rfl
@[simp] theorem takeInput_mono (s : State) : (takeInput s).mono = s.mono := rfl
@[simp] theorem takeInput_inputs (s : State) : (takeInput s).inputs = s.inputs.tail := rfl

/-! ## tickState -/

@[simp] theorem tickState_cfg (s : State) : (tickState s).cfg = s.cfg := rfl
@[simp] theorem tickState_dstate (s : State) : (tickState s).dstate = s.dstate := rfl
@[simp] theorem tickState_status (s : State) : (tickState s).status = s.status := rfl
@[simp] theorem tickState_data1 (s : State) : (tickState s).data1 = s.data1 := rfl
@[simp] theorem tickState_data2 (s : State) : (tickState s).data2 = s.data2 := rfl
@[simp] theorem tickState_pool (s : State) : (tickState s).pool = s.pool := rfl
@[simp] theorem tickState_phase (s : State) : (tickState s).phase = nextPhase s.cfg s.phase := rfl
@[simp] theorem tickState_evt (s : State) : (tickState s).evt = s.evt := rfl
@[simp] theorem tickState_frame (s : State) : (tickState s).frame = frameOf s.cfg s.phase s.pool := rfl
@[simp] theorem tickState_mixSum (s : State) : (tickState s).mixSum = mixOf (frameOf s.cfg s.phase s.pool) := rfl
@[simp] theorem tickState_mono (s : State) : (tickState s).mono = monoOf s.cfg.n (mixOf (frameOf s.cfg s.phase s.pool)) := rfl
@[simp] theorem tickState_inputs (s : State) : (tickState s).inputs = s.inputs := rfl

/-! ## State.initial -/

@[simp] theorem initial_cfg (cfg : Params) (inputs : List StepInput) : (State.initial cfg inputs).cfg = cfg := rfl
@[simp] theorem initial_dstate (cfg : Params) (inputs : List StepInput) : (State.initial cfg inputs).dstate = .idle := rfl
@[simp] theorem initial_status (cfg : Params) (inputs : List StepInput) : (State.initial cfg inputs).status = 0 := rfl
@[simp] theorem initial_data1 (cfg : Params) (inputs : List StepInput) : (State.initial cfg inputs).data1 = 0 := rfl
@[simp] theorem initial_data2 (cfg : Params) (inputs : List StepInput) : (State.initial cfg inputs).data2 = 0 := rfl
@[simp] theorem initial_pool (cfg : Params) (inputs : List StepInput) : (State.initial cfg inputs).pool = List.replicate cfg.n Slot.free := rfl
@[simp] theorem initial_phase (cfg : Params) (inputs : List StepInput) : (State.initial cfg inputs).phase = 0 := rfl
@[simp] theorem initial_evt (cfg : Params) (inputs : List StepInput) : (State.initial cfg inputs).evt = none := rfl
@[simp] theorem initial_frame (cfg : Params) (inputs : List StepInput) : (State.initial cfg inputs).frame = List.replicate cfg.n 0 := rfl
@[simp] theorem initial_mixSum (cfg : Params) (inputs : List StepInput) : (State.initial cfg inputs).mixSum = 0 := rfl
@[simp] theorem initial_mono (cfg : Params) (inputs : List StepInput) : (State.initial cfg inputs).mono = 0 := rfl
@[simp] theorem initial_inputs (cfg : Params) (inputs : List StepInput) : (State.initial cfg inputs).inputs = inputs := rfl

@[simp] theorem resetState_eq (s : State) : resetState s = State.initial s.cfg s.inputs := rfl

end Sys2Proof.Machine
end

