-- ==== Sys2Proof/Laws/Alloc.lean ====
section
/-! SUPPORT. What the allocator's operations can do, once: NOTE_ON and NOTE_OFF by cases (R143, R144), ALLOC (R140), and that they keep the pool invariants (R26, R27). -/

namespace Sys2Proof.Machine

@[simp] theorem isFree_iff (r : Slot) : r.isFree = true ↔ r.active = false := by
  simp [Slot.isFree]

@[simp] theorem holdsNote_iff (n : Data7) (r : Slot) :
    r.holdsNote n = true ↔ r.active = true ∧ r.note = n := by
  simp [Slot.holdsNote]

/-- Everything NOTE_ON can do: nothing, because the note sounds or no slot is free, or take the lowest
free slot. -/
theorem noteOn_cases (n v : Data7) (s : State) :
    ((∃ r ∈ s.pool, r.active = true ∧ r.note = n) ∧ noteOn n v s = s) ∨
    ((∀ r ∈ s.pool, r.active = true → r.note ≠ n) ∧
      ((∀ r ∈ s.pool, r.active = true) ∧ noteOn n v s = s ∨
        ∃ k r, s.pool[k]? = some r ∧ r.active = false ∧
          (∀ j q, j < k → s.pool[j]? = some q → q.active = true) ∧
          noteOn n v s = poolWrite k ⟨n, true, amplitude v⟩ s)) := by
  unfold noteOn
  by_cases hd : s.pool.any (Slot.holdsNote n) = true
  · left
    rw [if_pos hd]
    refine ⟨?_, rfl⟩
    obtain ⟨r, hr, h⟩ := List.any_eq_true.mp hd
    exact ⟨r, hr, (holdsNote_iff n r).mp h⟩
  · right
    rw [if_neg hd]
    refine ⟨fun r hr ha hn => hd (List.any_eq_true.mpr ⟨r, hr, (holdsNote_iff n r).mpr ⟨ha, hn⟩⟩), ?_⟩
    cases hf : s.pool.findIdx? Slot.isFree with
    | none =>
      left
      refine ⟨fun r hr => ?_, rfl⟩
      have := List.findIdx?_eq_none_iff.mp hf r hr
      simpa [Slot.isFree] using this
    | some k =>
      right
      obtain ⟨hk, hfree, hmin⟩ := List.findIdx?_eq_some_iff_getElem.mp hf
      refine ⟨k, s.pool[k], List.getElem?_eq_getElem hk, (isFree_iff _).mp hfree, fun j q hj hq => ?_, rfl⟩
      obtain ⟨hjl, rfl⟩ := List.getElem?_eq_some_iff.mp hq
      have := hmin j hj
      simpa [Slot.isFree] using this

/-- Everything NOTE_OFF can do: nothing, because no active slot holds the note, or free the lowest slot
that does. -/
theorem noteOff_cases (n : Data7) (s : State) :
    ((∀ r ∈ s.pool, r.active = true → r.note ≠ n) ∧ noteOff n s = s) ∨
    ∃ k r, s.pool[k]? = some r ∧ r.active = true ∧ r.note = n ∧
      (∀ j q, j < k → s.pool[j]? = some q → q.active = true → q.note ≠ n) ∧
      noteOff n s = poolWrite k Slot.free s := by
  unfold noteOff
  cases hf : s.pool.findIdx? (Slot.holdsNote n) with
  | none =>
    left
    refine ⟨fun r hr ha hn => ?_, rfl⟩
    have := List.findIdx?_eq_none_iff.mp hf r hr
    simp [Slot.holdsNote, ha, hn] at this
  | some k =>
    right
    obtain ⟨hk, hh, hmin⟩ := List.findIdx?_eq_some_iff_getElem.mp hf
    obtain ⟨ha, hn⟩ := (holdsNote_iff n _).mp hh
    refine ⟨k, s.pool[k], List.getElem?_eq_getElem hk, ha, hn, fun j q hj hq hqa hqn => ?_, rfl⟩
    obtain ⟨hjl, rfl⟩ := List.getElem?_eq_some_iff.mp hq
    exact hmin j hj ((holdsNote_iff n _).mpr ⟨hqa, hqn⟩)

/-- NOTE_ON writes nothing but one slot of the pool. -/
theorem noteOn_eq (n v : Data7) (s : State) : noteOn n v s = { s with pool := (noteOn n v s).pool } := by
  unfold noteOn; split <;> [rfl; (split <;> rfl)]

/-- NOTE_OFF writes nothing but one slot of the pool. -/
theorem noteOff_eq (n : Data7) (s : State) : noteOff n s = { s with pool := (noteOff n s).pool } := by
  unfold noteOff; split <;> rfl

/-- ALLOC writes nothing but the pool. -/
theorem alloc_eq (m : ChannelMessage) (s : State) : alloc m s = { s with pool := (alloc m s).pool } := by
  unfold alloc; split
  · exact noteOn_eq ..
  · exact noteOff_eq ..
  · rfl

/-- ALLOC reads nothing but the pool and the mode. -/
theorem alloc_congr (m : ChannelMessage) {s t : State} (hc : s.cfg = t.cfg) (hp : s.pool = t.pool) :
    (alloc m s).pool = (alloc m t).pool := by
  unfold alloc noteOn noteOff
  rw [hc, hp]
  split
  · split
    · exact hp
    · split <;> simp [hp]
  · split <;> simp [hp]
  · exact hp

@[simp] theorem alloc_cfg (m : ChannelMessage) (s : State) : (alloc m s).cfg = s.cfg := by rw [alloc_eq]
@[simp] theorem alloc_dstate (m : ChannelMessage) (s : State) : (alloc m s).dstate = s.dstate := by rw [alloc_eq]
@[simp] theorem alloc_status (m : ChannelMessage) (s : State) : (alloc m s).status = s.status := by rw [alloc_eq]
@[simp] theorem alloc_data1 (m : ChannelMessage) (s : State) : (alloc m s).data1 = s.data1 := by rw [alloc_eq]
@[simp] theorem alloc_data2 (m : ChannelMessage) (s : State) : (alloc m s).data2 = s.data2 := by rw [alloc_eq]
@[simp] theorem alloc_phase (m : ChannelMessage) (s : State) : (alloc m s).phase = s.phase := by rw [alloc_eq]
@[simp] theorem alloc_evt (m : ChannelMessage) (s : State) : (alloc m s).evt = s.evt := by rw [alloc_eq]
@[simp] theorem alloc_frame (m : ChannelMessage) (s : State) : (alloc m s).frame = s.frame := by rw [alloc_eq]
@[simp] theorem alloc_mixSum (m : ChannelMessage) (s : State) : (alloc m s).mixSum = s.mixSum := by rw [alloc_eq]
@[simp] theorem alloc_mono (m : ChannelMessage) (s : State) : (alloc m s).mono = s.mono := by rw [alloc_eq]
@[simp] theorem alloc_inputs (m : ChannelMessage) (s : State) : (alloc m s).inputs = s.inputs := by rw [alloc_eq]

/-! ## The pool invariants -/

/-- The amplitude has the form of R27. -/
theorem amplitude_toNat (v : Data7) : (amplitude v).toNat = 256 * v.toNat := by
  have hv : v.toNat < 128 := v.isLt
  have h : (256 : BitVec 16).toNat = 256 := rfl
  rw [amplitude, BitVec.toNat_mul, BitVec.toNat_setWidth, h]
  omega

theorem slotFits_free : slotFits Slot.free = true := by decide

theorem slotFits_voice (n v : Data7) : slotFits ⟨n, true, amplitude v⟩ = true := by
  have h := amplitude_toNat v
  have hv : v.toNat < 128 := v.isLt
  simp only [slotFits, h, Bool.true_or, Bool.and_true, Bool.and_eq_true, decide_eq_true_eq]
  omega

/-- Writing a free slot keeps the notes distinct. -/
theorem notesDistinct_set_free {pool : List Slot} (h : notesDistinct pool) (k : Nat) :
    notesDistinct (pool.set k Slot.free) := by
  unfold notesDistinct at *
  rw [List.pairwise_iff_getElem] at *
  intro i j hi hj hij
  rw [List.length_set] at hi hj
  rw [List.getElem_set, List.getElem_set]
  have := h i j hi hj hij
  split_ifs <;> simp_all [Slot.free]

/-- Writing an active slot whose note no active slot holds keeps the notes distinct. -/
theorem notesDistinct_set_voice {pool : List Slot} (h : notesDistinct pool) (k : Nat) {r : Slot}
    (hn : ∀ q ∈ pool, q.active = true → q.note ≠ r.note) : notesDistinct (pool.set k r) := by
  unfold notesDistinct at *
  rw [List.pairwise_iff_getElem] at *
  intro i j hi hj hij
  rw [List.length_set] at hi hj
  rw [List.getElem_set, List.getElem_set]
  have hp := h i j hi hj hij
  have hi' := hn _ (List.getElem_mem hi)
  have hj' := hn _ (List.getElem_mem hj)
  split_ifs with h1 h2 h2
  · omega
  · intro _ ha; exact fun e => hj' ha e.symm
  · intro ha _; exact hi' ha
  · exact hp

/-- ALLOC keeps the length of the pool, the distinct notes and the reachable slot values. -/
theorem alloc_keeps_pool (m : ChannelMessage) (s : State) (hd : notesDistinct s.pool)
    (hs : ∀ r ∈ s.pool, slotFits r = true) :
    (alloc m s).pool.length = s.pool.length ∧ notesDistinct (alloc m s).pool ∧
      ∀ r ∈ (alloc m s).pool, slotFits r = true := by
  have hset (k : Nat) (r : Slot) (hr : slotFits r = true) :
      ∀ q ∈ s.pool.set k r, slotFits q = true := by
    intro q hq
    rcases List.mem_or_eq_of_mem_set hq with h | rfl
    · exact hs q h
    · exact hr
  unfold alloc
  split
  · rcases noteOn_cases m.data1 m.data2 s with ⟨-, h⟩ | ⟨hn, ⟨-, h⟩ | ⟨k, r, -, -, -, h⟩⟩
    · rw [h]; exact ⟨rfl, hd, hs⟩
    · rw [h]; exact ⟨rfl, hd, hs⟩
    · rw [h, poolWrite_pool]
      exact ⟨List.length_set, notesDistinct_set_voice hd k hn, hset k _ (slotFits_voice _ _)⟩
  · rcases noteOff_cases m.data1 s with ⟨-, h⟩ | ⟨k, r, -, -, -, -, h⟩
    · rw [h]; exact ⟨rfl, hd, hs⟩
    · rw [h, poolWrite_pool]
      exact ⟨List.length_set, notesDistinct_set_free hd k, hset k _ slotFits_free⟩
  · exact ⟨rfl, hd, hs⟩

end Sys2Proof.Machine
end

