-- ==== Sys2Proof/Laws/Byte.lean ====
section
/-! SUPPORT. What the step of a byte can do, once: the data byte by decoder state (R117 to R124), and what no BYTE step touches (20_memory.md R72). -/

namespace Sys2Proof.Machine

/-- A complete message under a channel status is emitted and allocated (R122). -/
theorem completeMessage_channel {s : State} (v : Data7) (h : isChannelStatus s.status = true) :
    completeMessage v s = alloc ⟨s.status, s.data1, v⟩
      { s with data2 := v, dstate := .h2, evt := some ⟨s.status, s.data1, v⟩ } := by
  simp [completeMessage, h, emit]

/-- Under any other status nothing is emitted (R122). -/
theorem completeMessage_other {s : State} (v : Data7) (h : isChannelStatus s.status = false) :
    completeMessage v s = { s with data2 := v, dstate := .h2, evt := none } := by
  simp [completeMessage, h, emit]

/-- What R81's table says of a byte of each class: its range, or the byte its fields give back. -/
def byteOfClass (b : Byte) : ByteClass → Bool
  | .data => decide (b.toNat ≤ 0x7F)
  | .stNoteOff => decide (b = statusByte 0x8 (channelOf b))
  | .stNoteOn => decide (b = statusByte 0x9 (channelOf b))
  | .stPolyPressure => decide (b = statusByte 0xA (channelOf b))
  | .stControlChange => decide (b = statusByte 0xB (channelOf b))
  | .stProgramChange => decide (b = statusByte 0xC (channelOf b))
  | .stChannelPressure => decide (b = statusByte 0xD (channelOf b))
  | .stPitchBend => decide (b = statusByte 0xE (channelOf b))
  | .sysExStart => decide (b = 0xF0)
  | .sysF1 => decide (b = 0xF1)
  | .sysF2 => decide (b = 0xF2)
  | .sysF3 => decide (b = 0xF3)
  | .sysF4 => decide (b = 0xF4)
  | .sysF5 => decide (b = 0xF5)
  | .sysF6 => decide (b = 0xF6)
  | .sysExEnd => decide (b = 0xF7)
  | .realtime => decide (0xF8 ≤ b.toNat)

/-- The decoder state a status byte leads to, from R102 to R116; a byte of another class leads nowhere. -/
def statusTarget : ByteClass → Option DState
  | .stNoteOff => some .a2f
  | .stNoteOn => some .a2f
  | .stPolyPressure => some .a2f
  | .stControlChange => some .a2f
  | .stProgramChange => some .a1
  | .stChannelPressure => some .a1
  | .stPitchBend => some .a2f
  | .sysExStart => some .sysex
  | .sysF1 => some .a1
  | .sysF2 => some .a2f
  | .sysF3 => some .a1
  | .sysF4 => some .idle
  | .sysF5 => some .idle
  | .sysF6 => some .idle
  | .sysExEnd => some .idle
  | .data => none
  | .realtime => none

theorem byteOfClass_classifyByte : ∀ b : Byte, byteOfClass b (classifyByte b) = true := by
  decide +kernel

/-- Everything a BYTE can do: latch a status and go to its state, or clear the event port only, or take a
data byte. -/
theorem execByte_eq (b : Byte) (s : State) : execByte b s = .next
    (match statusTarget (classifyByte b) with
      | some d => latchStatus b d s
      | none => if classifyByte b = .data then dataByte (dataValue b) s else emit none s) := by
  have h := byteOfClass_classifyByte b
  unfold execByte
  generalize classifyByte b = k at h
  cases k <;> simp only [byteOfClass, decide_eq_true_eq] at h <;>
    first | rfl | (simp only [statusTarget]; conv_rhs => rw [h]
                   rfl)

/-- A BYTE touches neither the parameters, the synthesizer nor what is presented later (R72). -/
structure ByteFrame (s t : State) : Prop where
  cfg    : t.cfg = s.cfg
  phase  : t.phase = s.phase
  frame  : t.frame = s.frame
  mixSum : t.mixSum = s.mixSum
  mono   : t.mono = s.mono
  inputs : t.inputs = s.inputs

theorem dataByte_frame (v : Data7) (s : State) : ByteFrame s (dataByte v s) := by
  unfold dataByte
  split <;> try exact ⟨rfl, rfl, rfl, rfl, rfl, rfl⟩
  cases h : isChannelStatus s.status
  · rw [completeMessage_other v h]; exact ⟨rfl, rfl, rfl, rfl, rfl, rfl⟩
  · rw [completeMessage_channel v h]; constructor <;> simp

/-- Spec of the BYTE step's frame. -/
theorem execByte_frame {b : Byte} {s t : State} (h : execByte b s = .next t) : ByteFrame s t := by
  rw [execByte_eq] at h
  injection h with h
  subst h
  split
  · exact ⟨rfl, rfl, rfl, rfl, rfl, rfl⟩
  · split
    · exact dataByte_frame _ s
    · exact ⟨rfl, rfl, rfl, rfl, rfl, rfl⟩

/-- Two states agree on all that a BYTE reads: the decoder, the pool and the mode (R72). -/
structure SameDecoder (s t : State) : Prop where
  cfg    : s.cfg = t.cfg
  dstate : s.dstate = t.dstate
  status : s.status = t.status
  data1  : s.data1 = t.data1
  data2  : s.data2 = t.data2
  pool   : s.pool = t.pool

theorem dataByte_congr (v : Data7) {s t : State} (h : SameDecoder s t) :
    SameDecoder (dataByte v s) (dataByte v t) ∧ (dataByte v s).evt = (dataByte v t).evt := by
  obtain ⟨hc, hd, hs, h1, h2, hp⟩ := h
  unfold dataByte
  rw [hd]
  cases t.dstate <;> try exact ⟨⟨hc, by simp [hd], hs, by simp [h1], h2, hp⟩, rfl⟩
  cases hch : isChannelStatus s.status <;> have hch' := hch <;> rw [hs] at hch'
  · rw [completeMessage_other v hch, completeMessage_other v hch']
    exact ⟨⟨hc, rfl, hs, h1, rfl, hp⟩, rfl⟩
  · rw [completeMessage_channel v hch, completeMessage_channel v hch']
    refine ⟨⟨by simp [hc], by simp, by simp [hs], by simp [h1], by simp, ?_⟩, by simp [hs, h1]⟩
    rw [hs, h1]
    exact alloc_congr _ hc hp

/-- What a BYTE does to the decoder, the pool and the event port depends on nothing else. -/
theorem execByte_congr (b : Byte) {s t s' t' : State} (h : SameDecoder s t)
    (hs : execByte b s = .next s') (ht : execByte b t = .next t') :
    SameDecoder s' t' ∧ s'.evt = t'.evt := by
  rw [execByte_eq] at hs ht
  injection hs with hs
  injection ht with ht
  subst hs ht
  obtain ⟨hc, hd, hst, h1, h2, hp⟩ := h
  split
  · exact ⟨⟨hc, rfl, rfl, h1, h2, hp⟩, rfl⟩
  · split
    · exact dataByte_congr _ ⟨hc, hd, hst, h1, h2, hp⟩
    · exact ⟨⟨hc, hd, hst, h1, h2, hp⟩, rfl⟩

/-- A BYTE always completes. -/
theorem execByte_next (b : Byte) (s : State) : ∃ t, execByte b s = .next t := by
  rw [execByte_eq]; exact ⟨_, rfl⟩

end Sys2Proof.Machine
end

