-- ==== Sys2Proof/Laws/Codec.lean ====
section
/-! SUPPORT. The fields of encoded words (R81, R82, R83; the event word of 30_encoding.md). -/

namespace Sys2Proof

open Machine

/-- The event word keeps every bit of its message. -/
@[simp] theorem messageOfWord_eventWord (m : ChannelMessage) : messageOfWord (eventWord m) = m := by
  obtain ⟨st, d1, d2⟩ := m
  simp only [messageOfWord, eventWord, ChannelMessage.mk.injEq]
  refine ⟨?_, ?_, ?_⟩ <;> ext i hi <;> simp <;> grind

/-- Bits 15 and 7 of an event word are 0. -/
@[simp] theorem eventWord_bits (m : ChannelMessage) :
    (eventWord m).getLsbD 15 = false ∧ (eventWord m).getLsbD 7 = false := by
  constructor <;> simp only [eventWord, BitVec.getLsbD_append] <;> simp

@[simp] theorem decode_event24 (mode : NoteOnMode) (m : ChannelMessage) :
    decode mode (.event24 (eventWord m)) = decodeEvent mode m := by
  have h := eventWord_bits m
  simp only [decode, h.1, h.2, messageOfWord_eventWord, Bool.or_self, Bool.false_eq_true, if_false]

/-- The fields of a note-on status byte (R82). -/
theorem noteOnStatus_fields : ∀ c : Channel, isTwoParamStatus (0x9#4 ++ c) = true ∧
    (0x9#4 ++ c : Byte).extractLsb' 4 4 = 9 ∧ channelOf (0x9#4 ++ c) = c := by
  decide +kernel

/-- The fields of a note-off status byte (R82). -/
theorem noteOffStatus_fields : ∀ c : Channel, isTwoParamStatus (0x8#4 ++ c) = true ∧
    (0x8#4 ++ c : Byte).extractLsb' 4 4 = 8 ∧ channelOf (0x8#4 ++ c) = c := by
  decide +kernel

end Sys2Proof
end

