-- ==== Sys2Proof/Laws/OscPi.lean ====
section
/-! SUPPORT. The integer approximations of π and of sine in Machine/Osc.lean, with their error bounds (42_synthesizer.md R173). -/

-- One theorem after the other: in the package as one text, theorems that wait for each other each hold a thread.
set_option Elab.async false

namespace Sys2Proof.Machine

open Finset

/-! ## The arctangent series -/

/-- The `i`-th term of the series of `2^P · arctan(1/x)`, exactly. -/
theorem atanInv_eq_sum (P x K : Nat) :
    atanInv P x K
      = ∑ i ∈ range K, (-1) ^ i * ((2 ^ P / (x ^ (2 * i + 1) * (2 * i + 1)) : Nat) : Int) := by
  induction K with
  | zero => rfl
  | succ k ih => rw [sum_range_succ, ← ih]; rfl

/-- Rounding a quotient of naturals down loses less than 1. -/
theorem abs_natDiv_sub_div_le (m d : Nat) : |((m / d : Nat) : ℝ) - (m : ℝ) / d| ≤ 1 := by
  rcases Nat.eq_zero_or_pos d with rfl | hd
  · simp
  have hd' : (0 : ℝ) < d := by exact_mod_cast hd
  have h1 : ((m / d : Nat) : ℝ) ≤ (m : ℝ) / d := Nat.cast_div_le
  have h2 : (m : ℝ) / d < ((m / d : Nat) : ℝ) + 1 := by
    rw [div_lt_iff₀ hd']
    have := Nat.lt_div_mul_add (a := m) hd
    have h3 : m < (m / d + 1) * d := by linarith [Nat.add_mul (m / d) 1 d]
    exact_mod_cast h3
  rw [abs_le]; constructor <;> linarith

/-- The terms of the arctangent series at `1/x` decrease. -/
theorem arctan_terms_antitone {x : ℝ} (hx : 1 ≤ x) :
    Antitone (fun i : Nat => 1 / (x ^ (2 * i + 1) * (2 * i + 1))) := by
  refine antitone_nat_of_succ_le fun i => ?_
  have hx0 : 0 < x := by linarith
  apply one_div_le_one_div_of_le (by positivity)
  have : x ^ (2 * i + 1) ≤ x ^ (2 * (i + 1) + 1) := pow_le_pow_right₀ hx (by omega)
  push_cast
  gcongr
  linarith

/-- The partial sums of the arctangent series at `1/x` are off by at most the first term left out. -/
theorem arctan_partial_sum_error {x : ℝ} (hx : 1 < x) (K : Nat) :
    |Real.arctan x⁻¹ - ∑ i ∈ range K, (-1) ^ i * (1 / (x ^ (2 * i + 1) * (2 * i + 1)))|
      ≤ 1 / (x ^ (2 * K + 1) * (2 * K + 1)) := by
  have hx0 : 0 < x := by linarith
  have hlt : ‖x⁻¹‖ < 1 := by
    rw [Real.norm_of_nonneg (by positivity)]; exact inv_lt_one_of_one_lt₀ hx
  have hs := Real.hasSum_arctan hlt
  have he : (fun n : Nat => (-1 : ℝ) ^ n * x⁻¹ ^ (2 * n + 1) / ((2 * n + 1 : Nat) : ℝ))
      = fun i : Nat => (-1) ^ i * (1 / (x ^ (2 * i + 1) * (2 * i + 1))) := by
    funext i; rw [inv_pow]; push_cast; field_simp
  rw [he] at hs
  have hsum : Summable (fun i : Nat => 1 / (x ^ (2 * i + 1) * (2 * (i : ℝ) + 1))) := by
    have hg : Summable (fun i : Nat => x⁻¹ ^ i) :=
      summable_geometric_of_lt_one (by positivity) (inv_lt_one_of_one_lt₀ hx)
    refine Summable.of_nonneg_of_le (fun i => by positivity) (fun i => ?_) hg
    rw [inv_pow, ← one_div]
    apply one_div_le_one_div_of_le (by positivity)
    have h1 : x ^ i ≤ x ^ (2 * i + 1) := pow_le_pow_right₀ hx.le (by omega)
    have h2 : (1 : ℝ) ≤ 2 * i + 1 := by linarith [Nat.cast_nonneg (α := ℝ) i]
    calc x ^ i ≤ x ^ (2 * i + 1) := h1
      _ ≤ x ^ (2 * i + 1) * (2 * i + 1) := le_mul_of_one_le_right (by positivity) h2
  have := alternating_series_error_bound _ (arctan_terms_antitone hx.le) hsum K
  rwa [hs.tsum_eq] at this

/-- Spec of `atanInv`: off by at most the number of terms and the first term left out. -/
theorem atanInv_error (P K : Nat) {x : Nat} (hx : 1 < x) (hK : 2 ^ P ≤ x ^ (2 * K + 1)) :
    |(atanInv P x K : ℝ) - 2 ^ P * Real.arctan (x : ℝ)⁻¹| ≤ K + 1 := by
  have hx' : (1 : ℝ) < x := by exact_mod_cast hx
  have h1 : |(atanInv P x K : ℝ)
      - ∑ i ∈ range K, 2 ^ P * ((-1) ^ i * (1 / ((x : ℝ) ^ (2 * i + 1) * (2 * i + 1))))| ≤ K := by
    rw [atanInv_eq_sum]
    push_cast
    rw [← sum_sub_distrib]
    refine (abs_sum_le_sum_abs _ _).trans ?_
    calc _ ≤ ∑ i ∈ range K, (1 : ℝ) := by
          refine sum_le_sum fun i _ => ?_
          have := abs_natDiv_sub_div_le (2 ^ P) (x ^ (2 * i + 1) * (2 * i + 1))
          push_cast at this
          rw [show ∀ u v w : ℝ, (-1 : ℝ) ^ i * u - v * ((-1) ^ i * (1 / w)) = (-1) ^ i * (u - v / w) by
            intros; ring, abs_mul, abs_pow, abs_neg, abs_one, one_pow, one_mul]
          exact_mod_cast this
      _ = K := by simp
  have h2 := arctan_partial_sum_error hx' K
  have h3 : (2 : ℝ) ^ P * (1 / ((x : ℝ) ^ (2 * K + 1) * (2 * K + 1))) ≤ 1 := by
    rw [mul_one_div, div_le_one (by positivity)]
    have : (2 : ℝ) ^ P ≤ (x : ℝ) ^ (2 * K + 1) := by exact_mod_cast hK
    refine this.trans (le_mul_of_one_le_right (by positivity) ?_)
    linarith [Nat.cast_nonneg (α := ℝ) K]
  have h4 : |∑ i ∈ range K, 2 ^ P * ((-1) ^ i * (1 / ((x : ℝ) ^ (2 * i + 1) * (2 * i + 1))))
      - 2 ^ P * Real.arctan (x : ℝ)⁻¹| ≤ 1 := by
    rw [← mul_sum, ← mul_sub, abs_mul, abs_of_pos (by positivity : (0 : ℝ) < 2 ^ P), abs_sub_comm]
    exact (mul_le_mul_of_nonneg_left h2 (by positivity)).trans h3
  calc _ ≤ _ := abs_sub_le _ _ _
    _ ≤ _ := add_le_add h1 h4

/-- Spec of `piScaled` (Machin's formula). -/
theorem piScaled_error (P : Nat) : |(piScaled P : ℝ) - 2 ^ P * Real.pi| ≤ 5 * P + 40 := by
  have hpow (x : Nat) (hx : 5 ≤ x) : 2 ^ P ≤ x ^ (2 * (P / 4 + 1) + 1) := by
    calc 2 ^ P ≤ 2 ^ (2 * (2 * (P / 4 + 1) + 1)) := Nat.pow_le_pow_right (by norm_num) (by omega)
      _ = 4 ^ (2 * (P / 4 + 1) + 1) := by rw [pow_mul]; norm_num
      _ ≤ x ^ (2 * (P / 4 + 1) + 1) := Nat.pow_le_pow_left (by omega) _
  have h5 := atanInv_error P (P / 4 + 1) (x := 5) (by norm_num) (hpow 5 le_rfl)
  have h239 := atanInv_error P (P / 4 + 1) (x := 239) (by norm_num) (hpow 239 (by norm_num))
  have hm := Real.four_mul_arctan_inv_5_sub_arctan_inv_239
  have hpi : Real.pi = 16 * Real.arctan 5⁻¹ - 4 * Real.arctan 239⁻¹ := by linarith
  have hK : ((P / 4 + 1 : Nat) : ℝ) ≤ P / 4 + 1 := by
    push_cast
    have : ((P / 4 : Nat) : ℝ) ≤ (P : ℝ) / 4 := by exact_mod_cast Nat.cast_div_le (α := ℝ) (m := P) (n := 4)
    linarith
  rw [hpi]
  unfold piScaled
  push_cast at *
  rw [abs_le] at *
  constructor <;> nlinarith [h5.1, h5.2, h239.1, h239.2]

/-! ## The sine series -/

theorem sinSeries_eq_sum (P X K : Nat) :
    sinSeries P X K = ∑ i ∈ range K, (-1) ^ i * ((sinTerm P X i : Nat) : Int) := by
  induction K with
  | zero => rfl
  | succ k ih => rw [sum_range_succ, ← ih]; rfl

/-- The exact `i`-th term of the sine series at `x`, without its sign. -/
theorem sin_terms_succ (x : ℝ) (i : Nat) :
    x ^ (2 * (i + 1) + 1) / ((2 * (i + 1) + 1).factorial : ℝ)
      = x ^ (2 * i + 1) / ((2 * i + 1).factorial : ℝ) * (x ^ 2 / ((2 * i + 2) * (2 * i + 3))) := by
  rw [show 2 * (i + 1) + 1 = (2 * i + 1) + 1 + 1 by ring, Nat.factorial_succ, Nat.factorial_succ]
  push_cast
  have : ((2 * i + 1).factorial : ℝ) ≠ 0 := by positivity
  field_simp
  ring

/-- For `x` up to 17/10 each term of the sine series is at most half the one before. -/
theorem sin_ratio_le {x : ℝ} (hx0 : 0 ≤ x) (hx : x ≤ 17 / 10) (i : Nat) :
    x ^ 2 / ((2 * (i : ℝ) + 2) * (2 * i + 3)) ≤ 1 / 2 := by
  have hi : (0 : ℝ) ≤ i := Nat.cast_nonneg i
  rw [div_le_iff₀ (by positivity)]
  nlinarith

/-- From the third term on each term is at most a sixteenth of the one before. -/
theorem sin_ratio_le_sixteenth {x : ℝ} (hx0 : 0 ≤ x) (hx : x ≤ 17 / 10) {i : Nat} (h : 3 ≤ i) :
    x ^ 2 / ((2 * (i : ℝ) + 2) * (2 * i + 3)) ≤ 1 / 16 := by
  have hi : (3 : ℝ) ≤ i := by exact_mod_cast h
  rw [div_le_iff₀ (by positivity)]
  nlinarith

theorem sin_terms_antitone {x : ℝ} (hx0 : 0 ≤ x) (hx : x ≤ 17 / 10) :
    Antitone (fun i : Nat => x ^ (2 * i + 1) / ((2 * i + 1).factorial : ℝ)) := by
  refine antitone_nat_of_succ_le fun i => ?_
  rw [sin_terms_succ]
  exact mul_le_of_le_one_right (by positivity) ((sin_ratio_le hx0 hx i).trans (by norm_num))

theorem sin_partial_sum_error {x : ℝ} (hx0 : 0 ≤ x) (hx : x ≤ 17 / 10) (K : Nat) :
    |Real.sin x - ∑ i ∈ range K, (-1) ^ i * (x ^ (2 * i + 1) / ((2 * i + 1).factorial : ℝ))|
      ≤ x ^ (2 * K + 1) / ((2 * K + 1).factorial : ℝ) := by
  have hs := Real.hasSum_sin x
  have he : (fun n : Nat => (-1 : ℝ) ^ n * x ^ (2 * n + 1) / ((2 * n + 1).factorial : ℝ))
      = fun i => (-1) ^ i * (x ^ (2 * i + 1) / ((2 * i + 1).factorial : ℝ)) := by
    funext i; ring
  rw [he] at hs
  have hsum : Summable (fun i : Nat => x ^ (2 * i + 1) / ((2 * i + 1).factorial : ℝ)) :=
    (Real.summable_pow_div_factorial x).comp_injective (fun a b h => by simpa using h)
  have := alternating_series_error_bound _ (sin_terms_antitone hx0 hx) hsum K
  rwa [hs.tsum_eq] at this

/-- With `P/4 + 3` terms the term left out is below `2^-P`. -/
theorem sin_term_small {x : ℝ} (hx0 : 0 ≤ x) (hx : x ≤ 17 / 10) (P : Nat) :
    x ^ (2 * (P / 4 + 4) + 1) / ((2 * (P / 4 + 4) + 1).factorial : ℝ) * 2 ^ P ≤ 1 := by
  have key : ∀ k : Nat, x ^ (2 * (k + 4) + 1) / ((2 * (k + 4) + 1).factorial : ℝ) ≤ 1 / 16 ^ (k + 1) := by
    intro k
    induction k with
    | zero =>
      rw [div_le_div_iff₀ (by positivity) (by positivity)]
      have h1 : x ^ 9 ≤ (17 / 10) ^ 9 := pow_le_pow_left₀ hx0 hx 9
      norm_num [Nat.factorial] at *
      linarith
    | succ k ih =>
      rw [show k + 1 + 4 = (k + 4) + 1 by ring, sin_terms_succ]
      have h := sin_ratio_le_sixteenth hx0 hx (i := k + 4) (by omega)
      calc _ ≤ 1 / 16 ^ (k + 1) * (1 / 16 : ℝ) := by
            apply mul_le_mul ih h (by positivity) (by positivity)
        _ = 1 / 16 ^ (k + 1 + 1) := by rw [pow_succ (16 : ℝ) (k + 1)]; field_simp
  have h2 : (2 : ℝ) ^ P ≤ 16 ^ (P / 4 + 1) := by
    calc (2 : ℝ) ^ P ≤ 2 ^ (4 * (P / 4 + 1)) := pow_le_pow_right₀ (by norm_num) (by omega)
      _ = 16 ^ (P / 4 + 1) := by rw [pow_mul]; norm_num
  calc _ ≤ 1 / 16 ^ (P / 4 + 1) * (16 : ℝ) ^ (P / 4 + 1) := by
        apply mul_le_mul (key _) h2 (by positivity) (by positivity)
    _ = 1 := by field_simp

/-- Spec of `sinTerm`: each term is rounded down by less than 2 in all. -/
theorem sinTerm_bounds (P X : Nat) (hX : (X : ℝ) / 2 ^ P ≤ 17 / 10) (i : Nat) :
    (sinTerm P X i : ℝ) ≤ 2 ^ P * (((X : ℝ) / 2 ^ P) ^ (2 * i + 1) / ((2 * i + 1).factorial : ℝ)) ∧
    2 ^ P * (((X : ℝ) / 2 ^ P) ^ (2 * i + 1) / ((2 * i + 1).factorial : ℝ)) ≤ sinTerm P X i + 2 := by
  set x : ℝ := (X : ℝ) / 2 ^ P with hx
  have hx0 : 0 ≤ x := by positivity
  induction i with
  | zero =>
    have : (2 : ℝ) ^ P * (x ^ (2 * 0 + 1) / ((2 * 0 + 1).factorial : ℝ)) = X := by
      rw [hx]; norm_num [Nat.factorial]; field_simp
    rw [this]; simp [sinTerm]
  | succ i ih =>
    obtain ⟨ih1, ih2⟩ := ih
    set T := x ^ (2 * i + 1) / ((2 * i + 1).factorial : ℝ) with hT
    set ρ := x ^ 2 / ((2 * (i : ℝ) + 2) * (2 * i + 3)) with hρ
    have hρ0 : 0 ≤ ρ := by positivity
    have hρ1 : ρ ≤ 1 / 2 := sin_ratio_le hx0 hX i
    rw [sin_terms_succ, ← hT, ← hρ, ← mul_assoc]
    have hq := abs_natDiv_sub_div_le (sinTerm P X i * X ^ 2) (2 ^ (2 * P) * ((2 * i + 2) * (2 * i + 3)))
    have he : ((sinTerm P X i * X ^ 2 : Nat) : ℝ) / ((2 ^ (2 * P) * ((2 * i + 2) * (2 * i + 3)) : Nat) : ℝ)
        = sinTerm P X i * ρ := by
      rw [hρ, hx]; push_cast; rw [pow_mul' (2 : ℝ) 2 P]; field_simp
    have hle : ((sinTerm P X i * X ^ 2 / (2 ^ (2 * P) * ((2 * i + 2) * (2 * i + 3))) : Nat) : ℝ)
        ≤ sinTerm P X i * ρ := by rw [← he]; exact Nat.cast_div_le
    rw [he, abs_le] at hq
    have hstep : (sinTerm P X (i + 1) : ℝ)
        = ((sinTerm P X i * X ^ 2 / (2 ^ (2 * P) * ((2 * i + 2) * (2 * i + 3))) : Nat) : ℝ) := rfl
    rw [hstep]
    constructor
    · exact hle.trans (mul_le_mul_of_nonneg_right ih1 hρ0)
    · have h1 : 2 ^ P * T * ρ ≤ (sinTerm P X i + 2) * ρ := mul_le_mul_of_nonneg_right ih2 hρ0
      nlinarith [hq.1]

/-- Spec of `sinSeries`. -/
theorem sinSeries_error (P X K : Nat) (hX : (X : ℝ) / 2 ^ P ≤ 17 / 10) :
    |(sinSeries P X K : ℝ) - 2 ^ P * Real.sin ((X : ℝ) / 2 ^ P)|
      ≤ 2 * K + 2 ^ P * (((X : ℝ) / 2 ^ P) ^ (2 * K + 1) / ((2 * K + 1).factorial : ℝ)) := by
  have hb := sinTerm_bounds P X hX
  set x : ℝ := (X : ℝ) / 2 ^ P with hx
  have hx0 : 0 ≤ x := by positivity
  have h1 : |(sinSeries P X K : ℝ)
      - ∑ i ∈ range K, 2 ^ P * ((-1) ^ i * (x ^ (2 * i + 1) / ((2 * i + 1).factorial : ℝ)))| ≤ 2 * K := by
    rw [sinSeries_eq_sum]
    push_cast
    rw [← sum_sub_distrib]
    refine (abs_sum_le_sum_abs _ _).trans ?_
    calc _ ≤ ∑ i ∈ range K, (2 : ℝ) := by
          refine sum_le_sum fun i _ => ?_
          rw [show ∀ u v w : ℝ, (-1 : ℝ) ^ i * u - v * ((-1) ^ i * w) = (-1) ^ i * (u - v * w) by
            intros; ring, abs_mul, abs_pow, abs_neg, abs_one, one_pow, one_mul, abs_le]
          constructor <;> linarith [(hb i).1, (hb i).2]
      _ = 2 * K := by simp [mul_comm]
  have h2 : |∑ i ∈ range K, 2 ^ P * ((-1) ^ i * (x ^ (2 * i + 1) / ((2 * i + 1).factorial : ℝ)))
      - 2 ^ P * Real.sin x| ≤ 2 ^ P * (x ^ (2 * K + 1) / ((2 * K + 1).factorial : ℝ)) := by
    rw [← mul_sum, ← mul_sub, abs_mul, abs_of_pos (by positivity : (0 : ℝ) < 2 ^ P), abs_sub_comm]
    exact mul_le_mul_of_nonneg_left (sin_partial_sum_error hx0 hX K) (by positivity)
  calc _ ≤ _ := abs_sub_le _ _ _
    _ ≤ _ := add_le_add h1 h2

end Sys2Proof.Machine
end

