-- ==== Sys2Proof/Laws/OscSeparation.lean ====
section
/-! SUPPORT. The separation bound behind Machine/Osc.lean: a value `a · sin(π r / n)` that is no integer keeps a distance from every integer (42_synthesizer.md R173). -/

-- One theorem after the other: in the package as one text, theorems that wait for each other each hold a thread.
set_option Elab.async false

namespace Sys2Proof.Machine

open NumberField

/-- The norm argument: an algebraic integer of a number field that is not zero, all of whose
conjugates are at most `B`, is at least `B^-d` at every embedding, `d` bounding the degree. -/
theorem algebraic_integer_lower_bound {K : Type} [Field K] [NumberField K] (σ : K →+* ℂ) {x : K}
    (hx : IsIntegral ℤ x) (hx0 : x ≠ 0) {B : ℝ} (hB : 1 ≤ B) (hconj : ∀ τ : K →+* ℂ, ‖τ x‖ ≤ B)
    {d : Nat} (hd : Module.finrank ℚ K ≤ d) : 1 ≤ ‖σ x‖ * B ^ d := by
  have hnorm : IsIntegral ℤ (Algebra.norm ℚ x) := Algebra.isIntegral_norm ℚ hx
  obtain ⟨z, hz⟩ := IsIntegrallyClosed.isIntegral_iff.mp hnorm
  have hz0 : z ≠ 0 := by
    rintro rfl
    rw [map_zero] at hz
    exact hx0 ((Algebra.norm_eq_zero_iff).mp hz.symm)
  have h1 : (1 : ℝ) ≤ ‖Algebra.norm ℚ x‖ := by
    rw [← hz]
    have : (1 : ℝ) ≤ |(z : ℝ)| := by exact_mod_cast Int.one_le_abs hz0
    simpa [Int.norm_eq_abs] using this
  have h2 := norm_norm_le_norm_mul_house_pow x σ
  have h3 : house x ≤ B := by
    have hBn : ∀ τ ∈ Finset.univ, ‖(τ : K →+* ℂ) x‖₊ ≤ (⟨B, by linarith⟩ : NNReal) :=
      fun τ _ => hconj τ
    rw [house_eq_sup']
    exact_mod_cast Finset.sup'_le Finset.univ_nonempty _ hBn
  have h0 : (0 : ℝ) ≤ house x := house_nonneg x
  calc (1 : ℝ) ≤ ‖σ x‖ * house x ^ (Module.finrank ℚ K - 1) := h1.trans h2
    _ ≤ ‖σ x‖ * B ^ (Module.finrank ℚ K - 1) := by gcongr
    _ ≤ ‖σ x‖ * B ^ d := by gcongr; omega

/-- `a · sin(π r / n)` is an integer or at least `1 / (2 (4a+2)^(4n))` away from every integer of
size up to `a + 1`. -/
theorem sine_separation {n : Nat} (hn : 0 < n) (a r : Nat) (m : Int) (hm : |m| ≤ a + 1)
    (hne : (a : ℝ) * Real.sin (Real.pi * r / n) ≠ m) :
    1 ≤ 2 * |(a : ℝ) * Real.sin (Real.pi * r / n) - m| * (4 * a + 2 : ℝ) ^ (4 * n) := by
  -- ξ is a primitive 4n-th root of unity; i = ξ^n and e^(iπ r / n) = ξ^(2r)
  set N := 4 * n with hN
  have hN0 : N ≠ 0 := by omega
  set ξ : ℂ := Complex.exp (2 * Real.pi * Complex.I / N) with hξ
  have hNc : (N : ℂ) ≠ 0 := by exact_mod_cast hN0
  have hnc : (n : ℂ) ≠ 0 := by exact_mod_cast hn.ne'
  have hroot : ξ ^ N = 1 := by
    rw [hξ, ← Complex.exp_nat_mul, mul_div_cancel₀ _ hNc]
    exact_mod_cast Complex.exp_two_pi_mul_I
  have hξI : ξ ^ n = Complex.I := by
    have h : (n : ℂ) * (2 * Real.pi * Complex.I / N) = Real.pi / 2 * Complex.I := by
      rw [hN]; push_cast; field_simp; norm_num
    rw [hξ, ← Complex.exp_nat_mul, h, Complex.exp_pi_div_two_mul_I]
  have hexp : ξ ^ (2 * r) = Complex.exp ((Real.pi * r / n : ℝ) * Complex.I) := by
    rw [hξ, ← Complex.exp_nat_mul]
    congr 1
    rw [hN]; push_cast; field_simp; ring
  have hint : IsIntegral ℤ ξ := ⟨Polynomial.X ^ N - 1, Polynomial.monic_X_pow_sub_C (1 : ℤ) hN0, by simp [hroot]⟩
  have hintQ : IsIntegral ℚ ξ := ⟨Polynomial.X ^ N - 1, Polynomial.monic_X_pow_sub_C (1 : ℚ) hN0, by simp [hroot]⟩
  -- the number field generated by ξ
  let K := IntermediateField.adjoin ℚ {ξ}
  have : FiniteDimensional ℚ K := IntermediateField.adjoin.finiteDimensional hintQ
  have : NumberField K := ⟨⟩
  let g : K := IntermediateField.AdjoinSimple.gen ℚ ξ
  let σ : K →+* ℂ := K.val.toRingHom
  have hσg : σ g = ξ := rfl
  have hgN : g ^ N = 1 := σ.injective (by rw [map_pow, hσg, hroot, map_one])
  have hdeg : Module.finrank ℚ K ≤ N := by
    rw [IntermediateField.adjoin.finrank hintQ]
    calc (minpoly ℚ ξ).natDegree ≤ (Polynomial.X ^ N - 1 : Polynomial ℚ).natDegree := by
          apply Polynomial.natDegree_le_of_dvd
          · exact minpoly.dvd ℚ ξ (by simp [hroot])
          · exact (Polynomial.monic_X_pow_sub_C (1 : ℚ) hN0).ne_zero
      _ = N := by simpa using Polynomial.natDegree_X_pow_sub_C (n := N) (r := (1 : ℚ))
  have hgint : IsIntegral ℤ g := by
    refine ⟨Polynomial.X ^ N - 1, Polynomial.monic_X_pow_sub_C (1 : ℤ) hN0, by simp [hgN]⟩
  -- the algebraic integer 2 i (a sin θ − m)
  let q := 2 * r % N
  let x : K := a * (g ^ q - g ^ (N - q)) - 2 * m * g ^ n
  have ha : IsIntegral ℤ (a : K) := by
    simpa using isIntegral_algebraMap (R := ℤ) (A := K) (x := (a : ℤ))
  have h2m : IsIntegral ℤ (2 * m : K) := by
    simpa using isIntegral_algebraMap (R := ℤ) (A := K) (x := 2 * m)
  have hxint : IsIntegral ℤ x :=
    (ha.mul ((hgint.pow q).sub (hgint.pow (N - q)))).sub (h2m.mul (hgint.pow n))
  have hq : q ≤ N := (Nat.mod_lt _ (Nat.pos_of_ne_zero hN0)).le
  have hξq : ξ ^ q = Complex.exp ((Real.pi * r / n : ℝ) * Complex.I) := by
    rw [← hexp]
    conv_rhs => rw [← Nat.div_add_mod (2 * r) N, pow_add, pow_mul, hroot, one_pow, one_mul]
  have hξNq : ξ ^ (N - q) = Complex.exp (-((Real.pi * r / n : ℝ) * Complex.I)) := by
    have h1 : ξ ^ (N - q) * ξ ^ q = 1 := by rw [← pow_add, Nat.sub_add_cancel hq, hroot]
    rw [hξq] at h1
    rw [Complex.exp_neg]
    exact eq_inv_of_mul_eq_one_left h1
  have hσx : σ x = 2 * Complex.I * (((a : ℝ) * Real.sin (Real.pi * r / n) - m : ℝ) : ℂ) := by
    have hs : Complex.exp ((Real.pi * r / n : ℝ) * Complex.I)
        - Complex.exp (-((Real.pi * r / n : ℝ) * Complex.I))
        = 2 * Complex.I * Complex.sin (Real.pi * r / n : ℝ) := by
      rw [Complex.sin, ← neg_mul]
      linear_combination (Complex.exp ((Real.pi * r / n : ℝ) * Complex.I)
        - Complex.exp (-((Real.pi * r / n : ℝ)) * Complex.I)) * Complex.I_sq
    simp only [x, map_sub, map_mul, map_pow, map_natCast, map_intCast, map_ofNat, hσg, hξq, hξNq, hs, hξI]
    push_cast
    ring
  have hx0 : x ≠ 0 := by
    intro h
    have h0 : σ x = 0 := by rw [h, map_zero]
    rw [hσx] at h0
    have : ((a : ℝ) * Real.sin (Real.pi * r / n) - m : ℝ) = 0 := by
      have := (mul_eq_zero.mp h0).resolve_left (by simp [Complex.I_ne_zero])
      exact_mod_cast this
    exact hne (by linarith)
  have hm' : |(m : ℝ)| ≤ a + 1 := by exact_mod_cast hm
  have hconj (τ : K →+* ℂ) : ‖τ x‖ ≤ 4 * a + 2 := by
    have hτ : ‖τ g‖ = 1 := by
      have : τ g ^ N = 1 := by rw [← map_pow, hgN, map_one]
      exact Complex.norm_eq_one_of_pow_eq_one this hN0
    have e : τ x = a * (τ g ^ q - τ g ^ (N - q)) - 2 * m * τ g ^ n := by
      simp only [x, map_sub, map_mul, map_pow, map_natCast, map_intCast, map_ofNat]
    rw [e]
    calc _ ≤ ‖(a : ℂ) * (τ g ^ q - τ g ^ (N - q))‖ + ‖2 * (m : ℂ) * τ g ^ n‖ := norm_sub_le _ _
      _ ≤ a * (1 + 1) + 2 * |(m : ℝ)| := by
          gcongr
          · rw [norm_mul, Complex.norm_natCast]
            gcongr
            refine (norm_sub_le _ _).trans ?_
            simp [hτ]
          · simp [hτ]
      _ ≤ 4 * a + 2 := by linarith
  have := algebraic_integer_lower_bound σ hxint hx0
    (by linarith [Nat.cast_nonneg (α := ℝ) a] : (1 : ℝ) ≤ 4 * a + 2) hconj hdeg
  rw [hσx, norm_mul, norm_mul, Complex.norm_I, Complex.norm_real, Real.norm_eq_abs] at this
  simpa using this

end Sys2Proof.Machine
end

