-- ==== Sys2Proof/Laws/OscMagnitude.lean ====
section
/-! SUPPORT. The quarter-turn half of R173: `magnitude fs a r` is `⌊a · sin(π r / fs)⌋`, exactly. -/

-- One theorem after the other: in the package as one text, theorems that wait for each other each hold a thread.
set_option Elab.async false

namespace Sys2Proof.Machine

theorem mul_512_le_two_pow {P : Nat} (hP : 64 ≤ P) : P * 512 ≤ 2 ^ P := by
  induction P, hP using Nat.le_induction with
  | base => norm_num
  | succ n hn ih => rw [pow_succ]; linarith

/-- The enclosure of sine is sound: `sinScaled` is off by at most `sinError`. -/
theorem sinScaled_error {fs r P : Nat} (hfs : 0 < fs) (hr : 2 * r ≤ fs) (hP : 64 ≤ P) :
    |(sinScaled fs r P : ℝ) - 2 ^ P * Real.sin (Real.pi * r / fs)| ≤ sinError P := by
  have hfs' : (0 : ℝ) < fs := by exact_mod_cast hfs
  have hr' : 2 * (r : ℝ) ≤ fs := by exact_mod_cast hr
  have hr0 : (0 : ℝ) ≤ r := Nat.cast_nonneg r
  have hP' : (64 : ℝ) ≤ P := by exact_mod_cast hP
  have h2P : (0 : ℝ) < 2 ^ P := by positivity
  have hbig : (P : ℝ) * 512 ≤ 2 ^ P := by
    exact_mod_cast mul_512_le_two_pow hP
  have hpi := piScaled_error P
  have hpi3 := Real.pi_gt_three
  have hpi4 := Real.pi_lt_d2
  -- the scaled π is positive, so it is the natural number the definition uses
  have hpos : 0 ≤ piScaled P := by
    have : (0 : ℝ) ≤ (piScaled P : ℝ) := by
      rw [abs_le] at hpi; nlinarith [hpi.1]
    exact_mod_cast this
  set A := (piScaled P).toNat with hA
  have hAr : (A : ℝ) = (piScaled P : ℝ) := by
    have h : ((A : Int) : ℝ) = (piScaled P : ℝ) := by rw [hA, Int.toNat_of_nonneg hpos]
    exact_mod_cast h
  set X := A * r / fs with hX
  have hXq := abs_natDiv_sub_div_le (A * r) fs
  rw [← hX] at hXq
  push_cast at hXq
  rw [hAr] at hXq
  -- the argument is within 2.5 P + 21 of 2^P θ
  have hq : (0 : ℝ) ≤ r / fs := by positivity
  have hq2 : (r : ℝ) / fs ≤ 1 / 2 := by rw [div_le_iff₀ hfs']; linarith
  have harg : |(X : ℝ) - 2 ^ P * (Real.pi * r / fs)| ≤ 1 + (5 * P + 40) / 2 := by
    have h1 : |(piScaled P : ℝ) * r / fs - 2 ^ P * (Real.pi * r / fs)| ≤ (5 * P + 40) / 2 := by
      rw [show (piScaled P : ℝ) * r / fs - 2 ^ P * (Real.pi * r / fs)
        = ((piScaled P : ℝ) - 2 ^ P * Real.pi) * (r / fs) by ring, abs_mul, abs_of_nonneg hq]
      calc _ ≤ (5 * P + 40) * (1 / 2 : ℝ) := by gcongr
        _ = (5 * P + 40) / 2 := by ring
    exact (abs_sub_le _ _ _).trans (add_le_add hXq h1)
  have hx17 : (X : ℝ) / 2 ^ P ≤ 17 / 10 := by
    rw [div_le_iff₀ h2P]
    rw [abs_le] at harg
    have : Real.pi * r / fs ≤ 3.15 / 2 := by
      rw [mul_div_assoc]; nlinarith
    nlinarith [harg.2]
  have hser := sinSeries_error P X (P / 4 + 4) hx17
  have hsmall := sin_term_small (x := (X : ℝ) / 2 ^ P) (by positivity) hx17 P
  have hlip : |2 ^ P * Real.sin ((X : ℝ) / 2 ^ P) - 2 ^ P * Real.sin (Real.pi * r / fs)|
      ≤ 1 + (5 * P + 40) / 2 := by
    rw [← mul_sub, abs_mul, abs_of_pos h2P]
    have := Real.abs_sin_sub_sin_le ((X : ℝ) / 2 ^ P) (Real.pi * r / fs)
    calc _ ≤ 2 ^ P * |(X : ℝ) / 2 ^ P - Real.pi * r / fs| := by gcongr
      _ = |(X : ℝ) - 2 ^ P * (Real.pi * r / fs)| := by
          rw [← abs_of_pos h2P, ← abs_mul, abs_of_pos h2P]; congr 1; field_simp
      _ ≤ _ := harg
  have hK : ((P / 4 + 4 : Nat) : ℝ) ≤ P / 4 + 4 := by
    push_cast
    have : ((P / 4 : Nat) : ℝ) ≤ (P : ℝ) / 4 := by exact_mod_cast Nat.cast_div_le (α := ℝ) (m := P) (n := 4)
    linarith
  calc _ ≤ _ := abs_sub_le _ (2 ^ P * Real.sin ((X : ℝ) / 2 ^ P)) _
    _ ≤ (2 * ((P / 4 + 4 : Nat) : ℝ) + 1) + (1 + (5 * P + 40) / 2) :=
        add_le_add (hser.trans (by linarith [hsmall])) hlip
    _ ≤ sinError P := by unfold sinError; push_cast at *; linarith

/-- The integer parts of the two ends of the enclosure bracket the value. -/
theorem enclosure_bounds {fs r P : Nat} (a : Nat) (hfs : 0 < fs) (hr : 2 * r ≤ fs) (hP : 64 ≤ P) :
    a * (sinScaled fs r P - sinError P) / 2 ^ P ≤ ⌊(a : ℝ) * Real.sin (Real.pi * r / fs)⌋ ∧
    ⌊(a : ℝ) * Real.sin (Real.pi * r / fs)⌋ ≤ a * (sinScaled fs r P + sinError P) / 2 ^ P ∧
    ((a * (sinScaled fs r P + sinError P) / 2 ^ P : Int) : ℝ)
      ≤ a * Real.sin (Real.pi * r / fs) + 2 * a * sinError P / 2 ^ P := by
  have h2P : (0 : ℝ) < 2 ^ P := by positivity
  have ha : (0 : ℝ) ≤ a := Nat.cast_nonneg a
  have he := sinScaled_error hfs hr hP
  rw [abs_le] at he
  set v := Real.sin (Real.pi * r / fs)
  have hdiv (z : Int) : ((z / 2 ^ P : Int) : ℝ) ≤ (z : ℝ) / 2 ^ P := by
    rw [le_div_iff₀ h2P]
    have := Int.ediv_mul_le z (b := 2 ^ P) (by positivity)
    exact_mod_cast this
  have hdiv' (z : Int) : (z : ℝ) / 2 ^ P < ((z / 2 ^ P : Int) : ℝ) + 1 := by
    rw [div_lt_iff₀ h2P]
    have := Int.lt_ediv_add_one_mul_self z (b := 2 ^ P) (by positivity)
    exact_mod_cast this
  refine ⟨?_, ?_, ?_⟩
  · rw [Int.le_floor]
    refine (hdiv _).trans ?_
    rw [div_le_iff₀ h2P]; push_cast
    nlinarith [he.2]
  · rw [← Int.lt_add_one_iff, Int.floor_lt]
    push_cast
    refine lt_of_le_of_lt ?_ (hdiv' _)
    rw [le_div_iff₀ h2P]; push_cast
    nlinarith [he.1]
  · refine (hdiv _).trans ?_
    rw [div_le_iff₀ h2P, add_mul, div_mul_cancel₀ _ h2P.ne']; push_cast
    nlinarith [he.2]

/-- The loop answers the integer part when its last precision is beyond the separation bound. -/
theorem magnitudeLoop_eq_floor {fs a r : Nat} (hfs : 0 < fs) (hr : 2 * r ≤ fs) :
    ∀ fuel P : Nat, 64 ≤ P →
    4 * (a + 1) * sinError (2 ^ fuel * P) * (4 * a + 2) ^ (4 * fs) < 2 ^ (2 ^ fuel * P) →
    magnitudeLoop fs a r fuel P = ⌊(a : ℝ) * Real.sin (Real.pi * r / fs)⌋ := by
  intro fuel
  induction fuel with
  | zero =>
    intro P hP hsep
    rw [pow_zero, one_mul] at hsep
    obtain ⟨_, hhi, hup⟩ := enclosure_bounds a hfs hr hP
    set v := Real.sin (Real.pi * r / fs) with hv
    rw [magnitudeLoop]
    set hi : Int := a * (sinScaled fs r P + sinError P) / 2 ^ P with hhi'
    refine le_antisymm ?_ hhi
    rw [Int.le_floor]
    by_contra hlt
    rw [not_le] at hlt
    have h2P : (0 : ℝ) < 2 ^ P := by positivity
    have hsep' : 4 * ((a : ℝ) + 1) * sinError P * (4 * a + 2) ^ (4 * fs) < 2 ^ P := by exact_mod_cast hsep
    have ha : (0 : ℝ) ≤ a := Nat.cast_nonneg a
    have hE : (1 : ℝ) ≤ sinError P := by unfold sinError; push_cast; nlinarith [Nat.cast_nonneg (α := ℝ) P]
    have hB : (1 : ℝ) ≤ (4 * a + 2) ^ (4 * fs) := one_le_pow₀ (by linarith)
    have hEB : (1 : ℝ) ≤ sinError P * (4 * a + 2) ^ (4 * fs) := one_le_mul_of_one_le_of_one_le hE hB
    have hgap : 2 * (a : ℝ) * sinError P / 2 ^ P < 1 := by
      rw [div_lt_one h2P]; nlinarith
    have hv1 : v ≤ 1 := Real.sin_le_one _
    have hv0 : -1 ≤ v := Real.neg_one_le_sin _
    have hm : |hi| ≤ a + 1 := by
      rw [abs_le]
      constructor
      · have : (-((a : ℝ) + 1)) ≤ hi := by nlinarith
        exact_mod_cast this
      · have : (hi : ℝ) < a + 1 + 1 := by nlinarith
        have h : hi < a + 1 + 1 := by exact_mod_cast this
        omega
    have := sine_separation hfs a r hi hm (by rw [← hv]; exact ne_of_lt hlt)
    rw [← hv] at this
    have habs : |(a : ℝ) * v - hi| ≤ 2 * a * sinError P / 2 ^ P := by
      rw [abs_sub_comm, abs_of_pos (by linarith)]; linarith
    have h1 : 1 ≤ 2 * (2 * (a : ℝ) * sinError P / 2 ^ P) * (4 * a + 2) ^ (4 * fs) :=
      this.trans (by gcongr)
    rw [show 2 * (2 * (a : ℝ) * sinError P / 2 ^ P) * (4 * a + 2) ^ (4 * fs)
      = 4 * a * sinError P * (4 * a + 2) ^ (4 * fs) / 2 ^ P by ring, le_div_iff₀ h2P] at h1
    nlinarith
  | succ fuel ih =>
    intro P hP hsep
    obtain ⟨hlo, hhi, _⟩ := enclosure_bounds a hfs hr hP
    simp only [magnitudeLoop]
    split
    · next h => exact le_antisymm (h ▸ hlo) hhi
    · exact ih (2 * P) (by omega) (by rwa [show 2 ^ fuel * (2 * P) = 2 ^ (fuel + 1) * P by ring])

/-- The fuel is enough for the separation bound. -/
theorem magnitudeFuel_enough (fs a : Nat) (hfs : 0 < fs) :
    4 * (a + 1) * sinError (2 ^ magnitudeFuel fs a * 64) * (4 * a + 2) ^ (4 * fs)
      < 2 ^ (2 ^ magnitudeFuel fs a * 64) := by
  set l := Nat.log2 (4 * a + 2) + 1 with hl
  have ha2 : 4 * a + 2 < 2 ^ l := Nat.lt_log2_self
  set L := 4 * fs * l with hL
  set Q := 2 ^ magnitudeFuel fs a with hQ
  have hLQ : L < Q := by
    rw [hQ, magnitudeFuel, ← hl, ← hL]; exact Nat.lt_log2_self
  have hpow : (4 * a + 2) ^ (4 * fs) ≤ 2 ^ L := by
    calc _ ≤ (2 ^ l) ^ (4 * fs) := Nat.pow_le_pow_left ha2.le _
      _ = 2 ^ L := by rw [← pow_mul, hL, mul_comm]
  have hlL : l ≤ L := by rw [hL]; exact Nat.le_mul_of_pos_left l (by omega)
  have ha1 : 4 * (a + 1) ≤ 2 ^ (L + 1) := by
    have h1 : 2 ^ l ≤ 2 ^ L := Nat.pow_le_pow_right (by norm_num) hlL
    rw [pow_succ]; linarith
  have herr : sinError (Q * 64) < 2 ^ (2 * Q + 8) := by
    unfold sinError
    have h1 : Q < 2 ^ Q := Nat.lt_two_pow_self
    have h2 : 2 ^ Q ≤ 2 ^ (2 * Q) := Nat.pow_le_pow_right (by norm_num) (by omega)
    rw [pow_add]; omega
  have hQ1 : 1 ≤ Q := Nat.one_le_two_pow
  calc _ ≤ 2 ^ (L + 1) * sinError (Q * 64) * 2 ^ L := by gcongr
    _ < 2 ^ (L + 1) * 2 ^ (2 * Q + 8) * 2 ^ L := by gcongr
    _ = 2 ^ (2 * L + 2 * Q + 9) := by rw [← pow_add, ← pow_add]; congr 1; omega
    _ ≤ 2 ^ (Q * 64) := Nat.pow_le_pow_right (by norm_num) (by omega)

/-- Spec of `magnitude`: exactly `⌊a · sin(π r / fs)⌋` on the first quarter turn. -/
theorem magnitude_eq_floor {fs : Nat} (hfs : 0 < fs) (a : Nat) {r : Nat} (hr : 2 * r ≤ fs) :
    magnitude fs a r = ⌊(a : ℝ) * Real.sin (Real.pi * r / fs)⌋ := by
  have hfs' : (fs : ℝ) ≠ 0 := by exact_mod_cast hfs.ne'
  unfold magnitude
  split_ifs with h0 h2 h6
  · subst h0; simp
  · have : Real.pi * r / fs = Real.pi / 2 := by
      have h : (fs : ℝ) = 2 * r := by exact_mod_cast h2.symm
      rw [h] at hfs' ⊢; field_simp
    rw [this, Real.sin_pi_div_two, mul_one, Int.floor_natCast]
  · have : Real.pi * r / fs = Real.pi / 6 := by
      have h : (fs : ℝ) = 6 * r := by exact_mod_cast h6.symm
      rw [h] at hfs' ⊢; field_simp
    rw [this, Real.sin_pi_div_six, mul_one_div]
    have := Nat.floor_div_eq_div (K := ℝ) a 2
    push_cast at this
    rw [← this, Int.natCast_floor_eq_floor (by positivity)]
  · exact magnitudeLoop_eq_floor hfs hr _ _ le_rfl (magnitudeFuel_enough fs a hfs)

end Sys2Proof.Machine
end

