-- ==== Sys2Proof/Laws/Params.lean ====
section
/-! SUPPORT. What the legality check of the parameters says (00_scope.md R5, R6, R7, R11), and the table read FREQ (R61). -/

namespace Sys2Proof

theorem Params.legal_iff (p : Params) :
    1 ≤ p.n ∧ 1 ≤ p.fs ∧ 1 ≤ p.phaseBits ∧ p.noteFreq.length = 128 ∧
      (p.noteFreq.take 12).all (fun f => decide (f = 0)) = true := by
  have h := p.legal
  simp only [paramsLegal, Bool.and_eq_true, decide_eq_true_eq] at h
  tauto

theorem Params.n_pos (p : Params) : 0 < p.n := p.legal_iff.1

theorem Params.fs_pos (p : Params) : 0 < p.fs := p.legal_iff.2.1

theorem Params.phaseBits_pos (p : Params) : 0 < p.phaseBits := p.legal_iff.2.2.1

theorem Params.noteFreq_length (p : Params) : p.noteFreq.length = 128 := p.legal_iff.2.2.2.1

namespace Machine

theorem freq_eq_getElem? (p : Params) (n : Data7) : p.noteFreq[n.toNat]? = some (freq p n) := by
  have h : n.toNat < p.noteFreq.length := by rw [p.noteFreq_length]; exact n.isLt
  simp [freq, List.getD, List.getElem?_eq_getElem h]

/-- Entries below note 12 are 0 (R11, R68). -/
theorem freq_eq_zero_of_lt (p : Params) {n : Data7} (h : n.toNat < 12) : freq p n = 0 := by
  have hall := p.legal_iff.2.2.2.2
  rw [List.all_eq_true] at hall
  have h1 := freq_eq_getElem? p n
  have hmem : freq p n ∈ p.noteFreq.take 12 := by
    rw [List.mem_iff_getElem?]
    exact ⟨n.toNat, by rw [List.getElem?_take_of_lt h, h1]⟩
  simpa using hall _ hmem

@[simp] theorem freq_zero (p : Params) : freq p 0 = 0 := freq_eq_zero_of_lt p (by decide)

end Machine

end Sys2Proof
end

