-- ==== Sys2Proof/Laws/PerInstr.lean ====
section
/-! SUPPORT. Per operation: decoding its encoded word gives it back, with every operand at every value (family RoundTrip). -/

-- One theorem after the other: in the package as one text, theorems that wait for each other each hold a thread.
set_option Elab.async false

namespace Sys2Proof.Laws.RoundTrip

open Sys2Proof Sys2Proof.Machine

/-- The word of a well-formed operation decodes to it, under the mode its row names. -/
def Statement (i : Instr) : Prop :=
  ∀ mode, i.wf = true → (i.mode = none ∨ i.mode = some mode) → decode mode (encode i) = .ok i

theorem data (v : Data7) : Statement (.data v) := by
  have h : ∀ v : Data7, decodeByte (0#1 ++ v) = .data v := by decide +kernel
  intro mode _ _; simp [decode, encode, h]

theorem stNoteOff (c : Channel) : Statement (.stNoteOff c) := by
  have h : ∀ c : Channel, decodeByte (0x8#4 ++ c) = .stNoteOff c := by decide +kernel
  intro mode _ _; simp [decode, encode, h]

theorem stNoteOn (c : Channel) : Statement (.stNoteOn c) := by
  have h : ∀ c : Channel, decodeByte (0x9#4 ++ c) = .stNoteOn c := by decide +kernel
  intro mode _ _; simp [decode, encode, h]

theorem stPolyPressure (c : Channel) : Statement (.stPolyPressure c) := by
  have h : ∀ c : Channel, decodeByte (0xA#4 ++ c) = .stPolyPressure c := by decide +kernel
  intro mode _ _; simp [decode, encode, h]

theorem stControlChange (c : Channel) : Statement (.stControlChange c) := by
  have h : ∀ c : Channel, decodeByte (0xB#4 ++ c) = .stControlChange c := by decide +kernel
  intro mode _ _; simp [decode, encode, h]

theorem stProgramChange (c : Channel) : Statement (.stProgramChange c) := by
  have h : ∀ c : Channel, decodeByte (0xC#4 ++ c) = .stProgramChange c := by decide +kernel
  intro mode _ _; simp [decode, encode, h]

theorem stChannelPressure (c : Channel) : Statement (.stChannelPressure c) := by
  have h : ∀ c : Channel, decodeByte (0xD#4 ++ c) = .stChannelPressure c := by decide +kernel
  intro mode _ _; simp [decode, encode, h]

theorem stPitchBend (c : Channel) : Statement (.stPitchBend c) := by
  have h : ∀ c : Channel, decodeByte (0xE#4 ++ c) = .stPitchBend c := by decide +kernel
  intro mode _ _; simp [decode, encode, h]

theorem sysExStart : Statement .sysExStart := fun _ _ _ => rfl

theorem sysF1 : Statement .sysF1 := fun _ _ _ => rfl

theorem sysF2 : Statement .sysF2 := fun _ _ _ => rfl

theorem sysF3 : Statement .sysF3 := fun _ _ _ => rfl

theorem sysF4 : Statement .sysF4 := fun _ _ _ => rfl

theorem sysF5 : Statement .sysF5 := fun _ _ _ => rfl

theorem sysF6 : Statement .sysF6 := fun _ _ _ => rfl

theorem sysExEnd : Statement .sysExEnd := fun _ _ _ => rfl

theorem realtime (r : BitVec 3) : Statement (.realtime r) := by
  have h : ∀ r : BitVec 3, decodeByte (0x1F#5 ++ r) = .realtime r := by decide +kernel
  intro mode _ _; simp [decode, encode, h]

theorem noteOnGeneral (c : Channel) (n v : Data7) : Statement (.noteOnGeneral c n v) := by
  intro mode hw hm
  obtain rfl : mode = .general := by simpa [Instr.mode, eq_comm] using hm
  obtain ⟨h0, h1, h2⟩ := noteOnStatus_fields c
  have hv : v ≠ 0 := by simpa [Instr.wf] using hw
  simp only [encode, decode_event24, decodeEvent, h0, h1, h2, if_true, if_neg hv]

theorem noteOffGeneral9nV0 (c : Channel) (n : Data7) : Statement (.noteOffGeneral9nV0 c n) := by
  intro mode _ hm
  obtain rfl : mode = .general := by simpa [Instr.mode, eq_comm] using hm
  obtain ⟨h0, h1, h2⟩ := noteOnStatus_fields c
  simp only [encode, decode_event24, decodeEvent, h0, h1, h2, if_true]

theorem noteOffGeneral8n (c : Channel) (n v : Data7) : Statement (.noteOffGeneral8n c n v) := by
  intro mode _ hm
  obtain rfl : mode = .general := by simpa [Instr.mode, eq_comm] using hm
  obtain ⟨h0, h1, h2⟩ := noteOffStatus_fields c
  have h3 : (8 : BitVec 4) ≠ 9 := by decide
  simp only [encode, decode_event24, decodeEvent, h0, h1, h2, if_true, if_neg h3]

theorem ignoreGeneralAnBn (k : BitVec 5) (n v : Data7) : Statement (.ignoreGeneralAnBn k n v) := by
  intro mode _ hm
  obtain rfl : mode = .general := by simpa [Instr.mode, eq_comm] using hm
  have h : ∀ k : BitVec 5, isTwoParamStatus (0x5#3 ++ k) = true ∧
      (0x5#3 ++ k : Byte).extractLsb' 4 4 ≠ 9 ∧ (0x5#3 ++ k : Byte).extractLsb' 4 4 ≠ 8 ∧
      (0x5#3 ++ k : Byte).extractLsb' 5 3 = 5 ∧ (0x5#3 ++ k : Byte).extractLsb' 0 5 = k := by
    decide +kernel
  obtain ⟨h0, h1, h2, h3, h4⟩ := h k
  simp only [encode, decode_event24, decodeEvent, h0, h3, h4, if_true, if_neg h1, if_neg h2]

theorem ignoreGeneralEn (c : Channel) (n v : Data7) : Statement (.ignoreGeneralEn c n v) := by
  intro mode _ hm
  obtain rfl : mode = .general := by simpa [Instr.mode, eq_comm] using hm
  have h : ∀ c : Channel, isTwoParamStatus (0xE#4 ++ c) = true ∧
      (0xE#4 ++ c : Byte).extractLsb' 4 4 ≠ 9 ∧ (0xE#4 ++ c : Byte).extractLsb' 4 4 ≠ 8 ∧
      (0xE#4 ++ c : Byte).extractLsb' 5 3 ≠ 5 ∧ channelOf (0xE#4 ++ c) = c := by
    decide +kernel
  obtain ⟨h0, h1, h2, h3, h4⟩ := h c
  simp only [encode, decode_event24, decodeEvent, h0, h4, if_true, if_neg h1, if_neg h2, if_neg h3]

theorem noteOnReference (n v : Data7) : Statement (.noteOnReference n v) := by
  intro mode _ hm
  obtain rfl : mode = .reference := by simpa [Instr.mode, eq_comm] using hm
  have h : isTwoParamStatus 0x9B = true ∧ (0x9B : Byte) = refNoteOnStatus := by decide
  simp only [encode, decode_event24, decodeEvent, h.1, ← h.2, if_true]

theorem noteOffReference (k : BitVec 7) (n v : Data7) : Statement (.noteOffReference k n v) := by
  intro mode hw hm
  obtain rfl : mode = .reference := by simpa [Instr.mode, eq_comm] using hm
  have hk : ∀ k : BitVec 7, (1#1 ++ k : Byte).extractLsb' 0 7 = k := by decide +kernel
  simp only [Instr.wf, Bool.and_eq_true, bne_iff_ne, ne_eq] at hw
  simp only [encode, decode_event24, decodeEvent, hw.2, if_true, if_neg hw.1, hk]

theorem tick : Statement .tick := fun _ _ _ => rfl

theorem reset : Statement .reset := fun _ _ _ => rfl

theorem byte (b : Byte) : Statement (.byte b) := fun _ _ _ => rfl

end Sys2Proof.Laws.RoundTrip
end

