-- ==== Sys2Proof/Laws/Rows.lean ====
section
/-! SUPPORT. One spec lemma per event row: what its meaning is under the mode and the condition the row names (41_allocator.md R141, R142). -/

namespace Sys2Proof.Machine

/-- R141's classes of the note-on status bytes. -/
theorem classifyGeneral_noteOnStatus (c : Channel) (d2 : Data7) :
    classifyGeneral (statusByte 0x9 c) d2 = if d2 = 0 then .noteOff else .noteOn :=
  if_pos (noteOnStatus_fields c).2.1

/-- R141's class of the note-off status bytes. -/
theorem classifyGeneral_noteOffStatus (c : Channel) (d2 : Data7) :
    classifyGeneral (statusByte 0x8 c) d2 = .noteOff := by
  have h : (statusByte 0x8 c).extractLsb' 4 4 = 8 := (noteOffStatus_fields c).2.1
  rw [classifyGeneral, if_neg (by rw [h]; decide), if_pos h]

/-- R141's class of 0xA0 to 0xBF. -/
theorem classifyGeneral_anBn (k : BitVec 5) (d2 : Data7) :
    classifyGeneral (0x5#3 ++ k) d2 = .ignore := by
  have h : ∀ k : BitVec 5, (0x5#3 ++ k : Byte).extractLsb' 4 4 ≠ 9 ∧
      (0x5#3 ++ k : Byte).extractLsb' 4 4 ≠ 8 := by decide +kernel
  rw [classifyGeneral, if_neg (h k).1, if_neg (h k).2]

/-- R141's class of 0xE0 to 0xEF. -/
theorem classifyGeneral_en (c : Channel) (d2 : Data7) :
    classifyGeneral (statusByte 0xE c) d2 = .ignore := by
  have h : ∀ c : Channel, (statusByte 0xE c).extractLsb' 4 4 ≠ 9 ∧
      (statusByte 0xE c).extractLsb' 4 4 ≠ 8 := by decide +kernel
  rw [classifyGeneral, if_neg (h c).1, if_neg (h c).2]

/-- ALLOC by its class. -/
theorem alloc_noteOn {m : ChannelMessage} {s : State}
    (h : classify s.cfg.noteOnMode m.status m.data2 = .noteOn) :
    alloc m s = noteOn m.data1 m.data2 s := by rw [alloc, h]

theorem alloc_noteOff {m : ChannelMessage} {s : State}
    (h : classify s.cfg.noteOnMode m.status m.data2 = .noteOff) :
    alloc m s = noteOff m.data1 s := by rw [alloc, h]

theorem alloc_ignore {m : ChannelMessage} {s : State}
    (h : classify s.cfg.noteOnMode m.status m.data2 = .ignore) : alloc m s = s := by rw [alloc, h]

theorem execNoteOnGeneral_eq {s : State} (hm : s.cfg.noteOnMode = .general) (c : Channel) (n : Data7)
    {v : Data7} (hv : v ≠ 0) : execNoteOnGeneral c n v s = .next (noteOn n v s) := by
  rw [execNoteOnGeneral, alloc_noteOn]
  rw [hm]; exact (classifyGeneral_noteOnStatus c v).trans (if_neg hv)

theorem execNoteOffGeneral9nV0_eq {s : State} (hm : s.cfg.noteOnMode = .general) (c : Channel)
    (n : Data7) : execNoteOffGeneral9nV0 c n s = .next (noteOff n s) := by
  rw [execNoteOffGeneral9nV0, alloc_noteOff]
  rw [hm]; exact (classifyGeneral_noteOnStatus c 0).trans (if_pos rfl)

theorem execNoteOffGeneral8n_eq {s : State} (hm : s.cfg.noteOnMode = .general) (c : Channel)
    (n v : Data7) : execNoteOffGeneral8n c n v s = .next (noteOff n s) := by
  rw [execNoteOffGeneral8n, alloc_noteOff]
  rw [hm]; exact classifyGeneral_noteOffStatus c v

theorem execIgnoreGeneralAnBn_eq {s : State} (hm : s.cfg.noteOnMode = .general) (k : BitVec 5)
    (n v : Data7) : execIgnoreGeneralAnBn k n v s = .next s := by
  rw [execIgnoreGeneralAnBn, alloc_ignore]
  rw [hm]; exact classifyGeneral_anBn k v

theorem execIgnoreGeneralEn_eq {s : State} (hm : s.cfg.noteOnMode = .general) (c : Channel)
    (n v : Data7) : execIgnoreGeneralEn c n v s = .next s := by
  rw [execIgnoreGeneralEn, alloc_ignore]
  rw [hm]; exact classifyGeneral_en c v

theorem execNoteOnReference_eq {s : State} (hm : s.cfg.noteOnMode = .reference) (n v : Data7) :
    execNoteOnReference n v s = .next (noteOn n v s) := by
  rw [execNoteOnReference, alloc_noteOn]
  rw [hm]; exact (if_pos rfl : classifyReference refNoteOnStatus = .noteOn)

theorem execNoteOffReference_eq {s : State} (hm : s.cfg.noteOnMode = .reference) {k : BitVec 7}
    (hk : 1#1 ++ k ≠ refNoteOnStatus) (n v : Data7) :
    execNoteOffReference k n v s = .next (noteOff n s) := by
  rw [execNoteOffReference, alloc_noteOff]
  rw [hm]; exact (if_neg hk : classifyReference (1#1 ++ k) = .noteOff)

end Sys2Proof.Machine
end

