-- ==== Sys2Proof/Laws/Synth.lean ====
section
/-! SUPPORT. The oscillator's magnitude and the samples of a TICK (42_synthesizer.md R171 to R177): bounds and zeros. -/

-- One theorem after the other: in the package as one text, theorems that wait for each other each hold a thread.
set_option Elab.async false

namespace Sys2Proof.Machine

/-- The magnitude is between 0 and the amplitude (R174 L4). -/
theorem magnitude_bounds {fs : Nat} (hfs : 0 < fs) (a : Nat) {r : Nat} (hr : 2 * r ≤ fs) :
    0 ≤ magnitude fs a r ∧ magnitude fs a r ≤ a := by
  rw [magnitude_eq_floor hfs a hr]
  have ha : (0 : ℝ) ≤ a := Nat.cast_nonneg a
  have hfs' : (0 : ℝ) < fs := by exact_mod_cast hfs
  have hr' : 2 * (r : ℝ) ≤ fs := by exact_mod_cast hr
  have hsin : 0 ≤ Real.sin (Real.pi * r / fs) := by
    apply Real.sin_nonneg_of_nonneg_of_le_pi (by positivity)
    rw [div_le_iff₀ hfs']
    nlinarith [Real.pi_pos, Nat.cast_nonneg (α := ℝ) r]
  constructor
  · exact Int.floor_nonneg.mpr (mul_nonneg ha hsin)
  · rw [← Int.cast_le (R := ℝ)]
    refine (Int.floor_le _).trans ?_
    push_cast
    exact mul_le_of_le_one_right ha (Real.sin_le_one _)

@[simp] theorem magnitude_angle_zero (fs a : Nat) : magnitude fs a 0 = 0 := by simp [magnitude]

/-- The quarter-turn argument the reduction of R173 gives is within the quarter turn. -/
theorem reduced_angle_le {fs k : Nat} (hk : k < fs) :
    2 * (if 4 * (if 2 * k ≤ fs then k else fs - k) ≤ fs then 2 * (if 2 * k ≤ fs then k else fs - k)
      else fs - 2 * (if 2 * k ≤ fs then k else fs - k)) ≤ fs := by
  split_ifs <;> omega

/-- `|OSC_EXACT(a, f, p)| ≤ a` on the integers (R174 L4). -/
theorem oscExact_natAbs_le {fs : Nat} (hfs : 0 < fs) (a f p : Nat) : (oscExact fs a f p).natAbs ≤ a := by
  have hk : f * p % fs < fs := Nat.mod_lt _ hfs
  have h := magnitude_bounds hfs a (reduced_angle_le hk)
  simp only [oscExact]
  split_ifs at h ⊢ <;> omega

/-- A value that int16 holds is kept (R173). -/
theorem narrowSample_toInt {a f p : Nat} {x : Int} (h1 : -32768 ≤ x) (h2 : x ≤ 32767) :
    (narrowSample a f p x).toInt = x := by
  rw [narrowSample, if_pos ⟨h1, h2⟩]
  exact BitVec.toInt_ofInt_eq_self (by norm_num) (by norm_num; omega) (by norm_num; omega)

/-- A slot of a reachable amplitude has its exact sample, within -32512..32512 (R173). -/
theorem slotSample_toInt (cfg : Params) (p : Nat) {r : Slot} (hr : r.amp.toNat ≤ 32512) :
    (slotSample cfg p r).toInt = oscExact cfg.fs r.amp.toNat (freq cfg r.note) p ∧
      -32512 ≤ (slotSample cfg p r).toInt ∧ (slotSample cfg p r).toInt ≤ 32512 := by
  have h := oscExact_natAbs_le cfg.fs_pos r.amp.toNat (freq cfg r.note) p
  have h1 := narrowSample_toInt (a := r.amp.toNat) (f := freq cfg r.note) (p := p)
    (x := oscExact cfg.fs r.amp.toNat (freq cfg r.note) p) (by omega) (by omega)
  refine ⟨h1, ?_⟩
  rw [slotSample, h1]; omega

/-- The sum of samples bounded by `B` is bounded by `B` times their number (R176). -/
theorem mixOf_bounds {B : Int} (frame : List Sample)
    (h : ∀ x ∈ frame, -B ≤ x.toInt ∧ x.toInt ≤ B) :
    -(B * frame.length) ≤ mixOf frame ∧ mixOf frame ≤ B * frame.length := by
  induction frame with
  | nil => simp [mixOf]
  | cons x xs ih =>
    obtain ⟨h1, h2⟩ := h x (by simp)
    obtain ⟨h3, h4⟩ := ih (fun y hy => h y (by simp [hy]))
    simp only [mixOf, List.map_cons, List.sum_cons, List.length_cons] at *
    push_cast
    constructor <;> nlinarith

/-- The mean of a sum within `32768 n` fits int16, so the down-mix is exact (R177). -/
theorem monoOf_toInt {n : Nat} (hn : 0 < n) {S : Int} (h1 : -(32767 * n) ≤ S) (h2 : S ≤ 32767 * n) :
    (monoOf n S).toInt = S.tdiv n := by
  have hn' : (0 : Int) < n := by exact_mod_cast hn
  have hu : S.tdiv n ≤ 32767 := by
    have := Int.tdiv_le_tdiv hn' h2
    rwa [Int.mul_tdiv_cancel _ hn'.ne'] at this
  have hl : -32767 ≤ S.tdiv n := by
    have := Int.tdiv_le_tdiv hn' h1
    rwa [← Int.neg_mul, Int.mul_tdiv_cancel _ hn'.ne'] at this
  rw [monoOf]
  exact BitVec.toInt_ofInt_eq_self (by norm_num) (by norm_num; omega) (by norm_num; omega)

end Sys2Proof.Machine
end

