-- ==== Sys2Proof/Tests/Slice0.lean ====
section
/-! SUPPORT. The model's own tests: ill-formed operations are refused, words written out from the spec's bit patterns decode, single steps give the values of 95_test_vectors.md, and every obligation's hypotheses are met by a concrete state. Expected values come from the spec; the comment of a test names the vector or the rule. -/

-- One theorem after the other: in the package as one text, theorems that wait for each other each hold a thread.
set_option Elab.async false

namespace Sys2Proof.Tests

open Sys2Proof Sys2Proof.Machine

/-! ## Helpers -/

/-- The next state of an outcome. -/
def out : Host.Outcome State Fault Refusal → Option State
  | .next s => some s
  | .fault _ => none
  | .refused _ => none

/-- An active slot. -/
def voice (n : Data7) (amp : BitVec 16) : Slot := ⟨n, true, amp⟩

/-- A free slot. -/
def free : Slot := ⟨0, false, 0⟩

/-- The default core with decoder registers as given. -/
def decoderAt (d : DState) (status : Byte) (d1 d2 : Data7) : State :=
  { State.reset with dstate := d, status := status, data1 := d1, data2 := d2 }

/-- The default core with a pool and a phase. -/
def poolAt (pool : List Slot) (phase : Nat) : State := { State.reset with pool := pool, phase := phase }

/-- The default parameters in REFERENCE mode. -/
def referenceParams : Params := { defaultParams with noteOnMode := .reference }

/-- A core in REFERENCE mode with a pool. -/
def referenceAt (pool : List Slot) : State := { State.initial referenceParams [] with pool := pool }

/-- The decoder's registers and event after an operation. -/
def decoderOf (o : Host.Outcome State Fault Refusal) :
    Option (DState × Byte × Data7 × Data7 × Option ChannelMessage) :=
  (out o).map (fun t => (t.dstate, t.status, t.data1, t.data2, t.evt))

/-- The pool after an operation. -/
def poolOf (o : Host.Outcome State Fault Refusal) : Option (List Slot) := (out o).map State.pool

/-- The sample outputs, as numbers, and the phase after an operation. -/
def samplesOf (o : Host.Outcome State Fault Refusal) : Option (List Int × Int × Int × Nat) :=
  (out o).map (fun t => (t.frame.map BitVec.toInt, t.mixSum, t.mono.toInt, t.phase))

/-- A full pool (V-A11). -/
def fullPool : List Slot := [voice 60 25600, voice 62 25600, voice 64 25600, voice 65 25600]

/-! ## WellFormed: each check refuses an ill-formed operation -/

/-- A note-on row of GENERAL with velocity 0 (the row's condition `data2 != 0`). -/
theorem test_wf_noteOnGeneral_zero_velocity : (Instr.noteOnGeneral 0 60 0).wf = false := by decide
/-- The status 0x9B is no note-off in REFERENCE mode. -/
theorem test_wf_noteOffReference_9B : (Instr.noteOffReference 0x1B 60 64).wf = false := by decide
/-- The status 0xC0 never reaches the allocator. -/
theorem test_wf_noteOffReference_C0 : (Instr.noteOffReference 0x40 60 64).wf = false := by decide
/-- The status 0xF2 never reaches the allocator. -/
theorem test_wf_noteOffReference_F2 : (Instr.noteOffReference 0x72 60 64).wf = false := by decide
theorem test_wf_accepts : (Instr.noteOnGeneral 15 60 1).wf = true ∧
    (Instr.noteOffReference 0x00 0 0).wf = true ∧ (Instr.noteOffReference 0x6F 127 127).wf = true ∧
    (Instr.byte 0xFF).wf = true := by decide

/-! ## Decode: words written out from the patterns of R81 and of opcode_table.json -/

/-- `0ddddddd` and the seven channel status rows, at both ends of the field. -/
theorem test_decode_channel_rows :
    decodeByte 0b00000000 = .data 0 ∧ decodeByte 0b01111111 = .data 127 ∧
    decodeByte 0b10000000 = .stNoteOff 0 ∧ decodeByte 0b10001111 = .stNoteOff 15 ∧
    decodeByte 0b10010000 = .stNoteOn 0 ∧ decodeByte 0b10011011 = .stNoteOn 11 ∧
    decodeByte 0b10100000 = .stPolyPressure 0 ∧ decodeByte 0b10101111 = .stPolyPressure 15 ∧
    decodeByte 0b10110000 = .stControlChange 0 ∧ decodeByte 0b10111111 = .stControlChange 15 ∧
    decodeByte 0b11000000 = .stProgramChange 0 ∧ decodeByte 0b11001111 = .stProgramChange 15 ∧
    decodeByte 0b11010000 = .stChannelPressure 0 ∧ decodeByte 0b11011111 = .stChannelPressure 15 ∧
    decodeByte 0b11100000 = .stPitchBend 0 ∧ decodeByte 0b11101111 = .stPitchBend 15 := by decide
/-- The eight system message rows and the real-time row. -/
theorem test_decode_system_rows :
    decodeByte 0b11110000 = .sysExStart ∧ decodeByte 0b11110001 = .sysF1 ∧
    decodeByte 0b11110010 = .sysF2 ∧ decodeByte 0b11110011 = .sysF3 ∧
    decodeByte 0b11110100 = .sysF4 ∧ decodeByte 0b11110101 = .sysF5 ∧
    decodeByte 0b11110110 = .sysF6 ∧ decodeByte 0b11110111 = .sysExEnd ∧
    decodeByte 0b11111000 = .realtime 0 ∧ decodeByte 0b11111110 = .realtime 6 ∧
    decodeByte 0b11111111 = .realtime 7 := by decide
/-- The event rows of GENERAL: status, then a data1 and a data2 whose top bits are 0. -/
theorem test_decode_event_rows_general :
    decode .general (.event24 0b10010010_00111100_01010000) = .ok (.noteOnGeneral 2 60 80) ∧
    decode .general (.event24 0b10010010_00111100_00000000) = .ok (.noteOffGeneral9nV0 2 60) ∧
    decode .general (.event24 0b10000101_00111100_01000000) = .ok (.noteOffGeneral8n 5 60 64) ∧
    decode .general (.event24 0b10100001_00000111_01100100) = .ok (.ignoreGeneralAnBn 1 7 100) ∧
    decode .general (.event24 0b10111111_00000111_01100100) = .ok (.ignoreGeneralAnBn 31 7 100) ∧
    decode .general (.event24 0b11100011_00000000_01000000) = .ok (.ignoreGeneralEn 3 0 64) := by decide
/-- The event rows of REFERENCE: only 0x9B is a note-on. -/
theorem test_decode_event_rows_reference :
    decode .reference (.event24 0b10011011_00111100_00000000) = .ok (.noteOnReference 60 0) ∧
    decode .reference (.event24 0b10010000_00111100_01000000) = .ok (.noteOffReference 0x10 60 64) ∧
    decode .reference (.event24 0b11100000_00111100_00000000) = .ok (.noteOffReference 0x60 60 0) := by
  decide
/-- The strobes `{reset, tick, byte_strobe}` as bits 2 to 0. -/
theorem test_decode_strobe_rows :
    decode .general (.strobe3 0b100 0) = .ok .reset ∧ decode .general (.strobe3 0b111 0x90) = .ok .reset ∧
    decode .general (.strobe3 0b010 0) = .ok .tick ∧
    decode .general (.strobe3 0b001 0x90) = .ok (.byte 0x90) ∧
    decode .general (.strobe3 0b000 0) = .error .noStrobe := by decide
/-- No event has such a word. -/
theorem test_decode_event_refuses :
    decode .general (.event24 0b10010010_10111100_01010000) = .error .eventBitSet ∧
    decode .general (.event24 0b10010010_00111100_11010000) = .error .eventBitSet ∧
    decode .general (.event24 0b11000000_00111100_01010000) = .error .notAnEventStatus := by decide
/-- TICK comes before BYTE in one step, and RESET excludes both (R35, R36). -/
theorem test_decodeStep_order :
    decodeStep ⟨false, true, true, 0x40⟩ = [.tick, .byte 0x40] ∧
    decodeStep ⟨true, true, true, 0x9B⟩ = [.reset] ∧ decodeStep StepInput.idle = [] := by decide
/-- Table words, and the next step runs them as the first operation after reset. -/
theorem test_decodeTableWord :
    decodeTableWord 8 0x9B = some (.stNoteOn 11) ∧
    decodeTableWord 24 0x903C40 = some (.noteOnGeneral 0 60 64) ∧
    decodeTableWord 8 4 = some .reset ∧ decodeTableWord 3 2 = some .tick := by decide
theorem test_withFetchWord_event :
    poolOf (step (State.reset.withFetchWord 24 0x903C40)) = some [voice 60 16384, free, free, free] := by
  decide +kernel
theorem test_withFetchWord_tick :
    samplesOf (step (State.reset.withFetchWord 3 2)) = some ([0, 0, 0, 0], 0, 0, 1) := by decide +kernel
/-- The pseudo-operations of R90 expand to the bytes the spec lists. -/
theorem test_program_notation :
    (Line.noteOn 0 60 64).bytes = [0x90, 0x3C, 0x40] ∧ (Line.noteOff 15 60 0).bytes = [0x8F, 0x3C, 0x00] ∧
    (Line.refOn 60 64).bytes = [0x9B, 0x3C, 0x40] ∧ (Line.sysex [0x43]).bytes = [0xF0, 0x43, 0xF7] ∧
    (Line.rt 0xFE).ok = false ∧ (Line.rt 0xF8).ok = true ∧
    programInputs [.ticks 2, .run1 5] = [tickInput, tickInput, byteInput 0x05] := by decide

/-! ## The decoder (95_test_vectors.md 2.2) -/

/-- V-D2: absorbed in Idle. -/
theorem test_data_idle : decoderOf (exec (.data 0x3C) State.reset) = some (.idle, 0, 0, 0, none) := by
  decide +kernel
/-- V-D5: the second data byte completes and emits. -/
theorem test_data_completes : decoderOf (exec (.data 0x40) (decoderAt .a2s 0x90 0x3C 0)) =
    some (.h2, 0x90, 0x3C, 0x40, some ⟨0x90, 0x3C, 0x40⟩) := by decide +kernel
/-- V-D12: 0xF2 completes with no event. -/
theorem test_data_completes_F2 : decoderOf (exec (.data 0x40) (decoderAt .a2s 0xF2 0x30 0x20)) =
    some (.h2, 0xF2, 0x30, 0x40, none) := by decide +kernel
/-- V-D9: a new status abandons the partial message and keeps DATA1. -/
theorem test_stNoteOn : decoderOf (exec (.stNoteOn 1) (decoderAt .a2s 0x90 0x3C 0)) =
    some (.a2f, 0x91, 0x3C, 0, none) := by decide +kernel
/-- R110. -/
theorem test_stNoteOff : decoderOf (exec (.stNoteOff 0) (decoderAt .h2 0x90 0x3C 0x40)) =
    some (.a2f, 0x80, 0x3C, 0x40, none) := by decide +kernel
/-- R112. -/
theorem test_stPolyPressure : decoderOf (exec (.stPolyPressure 0) State.reset) =
    some (.a2f, 0xA0, 0, 0, none) := by decide +kernel
/-- R113, ending a system exclusive. -/
theorem test_stControlChange : decoderOf (exec (.stControlChange 0) (decoderAt .sysex 0xF0 0 0)) =
    some (.a2f, 0xB0, 0, 0, none) := by decide +kernel
/-- R114. -/
theorem test_stProgramChange : decoderOf (exec (.stProgramChange 5) State.reset) =
    some (.a1, 0xC5, 0, 0, none) := by decide +kernel
/-- R115. -/
theorem test_stChannelPressure : decoderOf (exec (.stChannelPressure 0) State.reset) =
    some (.a1, 0xD0, 0, 0, none) := by decide +kernel
/-- R116. -/
theorem test_stPitchBend : decoderOf (exec (.stPitchBend 0) (decoderAt .a1 0xC0 0 0)) =
    some (.a2f, 0xE0, 0, 0, none) := by decide +kernel
/-- R102's example. -/
theorem test_sysExStart : decoderOf (exec .sysExStart (decoderAt .a2s 0x90 0x3C 0)) =
    some (.sysex, 0xF0, 0x3C, 0, none) := by decide +kernel
/-- R103. -/
theorem test_sysF1 : decoderOf (exec .sysF1 (decoderAt .sysex 0xF0 0 0)) =
    some (.a1, 0xF1, 0, 0, none) := by decide +kernel
/-- R104. -/
theorem test_sysF2 : decoderOf (exec .sysF2 (decoderAt .h2 0x90 0x3C 0x40)) =
    some (.a2f, 0xF2, 0x3C, 0x40, none) := by decide +kernel
/-- R105. -/
theorem test_sysF3 : decoderOf (exec .sysF3 State.reset) = some (.a1, 0xF3, 0, 0, none) := by
  decide +kernel
/-- V-D19. -/
theorem test_sysF4 : decoderOf (exec .sysF4 (decoderAt .a2s 0x90 0x3C 0)) =
    some (.idle, 0xF4, 0x3C, 0, none) := by decide +kernel
/-- V-D20. -/
theorem test_sysF5 : decoderOf (exec .sysF5 (decoderAt .a2f 0x90 0 0)) =
    some (.idle, 0xF5, 0, 0, none) := by decide +kernel
/-- V-D18. -/
theorem test_sysF6 : decoderOf (exec .sysF6 (decoderAt .h2 0x90 0x3C 0x40)) =
    some (.idle, 0xF6, 0x3C, 0x40, none) := by decide +kernel
/-- V-D27: 0xF7 without 0xF0. -/
theorem test_sysExEnd : decoderOf (exec .sysExEnd State.reset) = some (.idle, 0xF7, 0, 0, none) := by
  decide +kernel
/-- V-D8: a real-time byte inside a message. -/
theorem test_realtime : decoderOf (exec (.realtime 0) (decoderAt .a2s 0x90 0x3C 0)) =
    some (.a2s, 0x90, 0x3C, 0, none) := by decide +kernel
/-- R100's example. -/
theorem test_byte : decoderOf (exec (.byte 0x9B) State.reset) = some (.a2f, 0x9B, 0, 0, none) := by
  decide +kernel
/-- W1: the third byte of the note-on scenario reaches the pool. -/
theorem test_byte_allocates : poolOf (exec (.byte 0x40) (decoderAt .a2s 0x9B 0x3C 0)) =
    some [voice 60 16384, free, free, free] := by decide +kernel

/-! ## The allocator (95_test_vectors.md 2.3) -/

/-- V-A10: the first hole is used. -/
theorem test_noteOnGeneral_hole :
    poolOf (exec (.noteOnGeneral 0 67 100) (poolAt [voice 60 16384, free, voice 64 16384, free] 0)) =
      some [voice 60 16384, voice 67 25600, voice 64 16384, free] := by decide +kernel
/-- V-A9: a duplicate above a free slot. -/
theorem test_noteOnGeneral_duplicate :
    poolOf (exec (.noteOnGeneral 0 62 80) (poolAt [free, voice 62 20480, free, free] 0)) =
      some [free, voice 62 20480, free, free] := by decide +kernel
/-- V-A4. -/
theorem test_noteOffGeneral9nV0 :
    poolOf (exec (.noteOffGeneral9nV0 0 60) (poolAt [voice 60 16384, free, free, free] 0)) =
      some [free, free, free, free] := by decide +kernel
/-- V-A12: a middle slot freed. -/
theorem test_noteOffGeneral8n :
    poolOf (exec (.noteOffGeneral8n 0 62 0) (poolAt fullPool 0)) =
      some [voice 60 25600, free, voice 64 25600, voice 65 25600] := by decide +kernel
/-- V-A7. -/
theorem test_ignoreGeneralAnBn :
    poolOf (exec (.ignoreGeneralAnBn 0x10 60 0) (poolAt [voice 60 16384, free, free, free] 0)) =
      some [voice 60 16384, free, free, free] := by decide +kernel
/-- V-A8. -/
theorem test_ignoreGeneralEn :
    poolOf (exec (.ignoreGeneralEn 0 60 64) (poolAt [voice 60 16384, free, free, free] 0)) =
      some [voice 60 16384, free, free, free] := by decide +kernel
/-- V-A21: active and silent. -/
theorem test_noteOnReference :
    poolOf (exec (.noteOnReference 60 0) (referenceAt [free, free, free, free])) =
      some [voice 60 0, free, free, free] := by decide +kernel
/-- V-A24: a control change turns off note 7. -/
theorem test_noteOffReference :
    poolOf (exec (.noteOffReference 0x30 7 100) (referenceAt [voice 7 25600, free, free, free])) =
      some [free, free, free, free] := by decide +kernel

/-! ## The oscillator and TICK (95_test_vectors.md 2.4 and 2.5) -/

/-- V-S2, V-S8, V-S10, V-S12, V-S14, V-S18: rise, peak, zero crossing, negative, last phase, exact zero. -/
theorem test_oscExact :
    oscExact 22050 16384 262 1 = 1222 ∧ oscExact 22050 16384 262 21 = 16383 ∧
    oscExact 22050 16384 262 42 = 98 ∧ oscExact 22050 16384 262 1000 = -11058 ∧
    oscExact 22050 16384 262 65535 = -15326 ∧ oscExact 22050 16384 440 2205 = 0 := by decide +kernel
/-- V-S26, V-S28, V-S30, V-S33 (the vector closest to an integer), V-S36. -/
theorem test_oscExact_more :
    oscExact 22050 32512 12544 1 = -13637 ∧ oscExact 22050 32512 16 1 = 148 ∧
    oscExact 22050 256 262 1 = 19 ∧ oscExact 22050 25600 392 3 = 8418 ∧
    oscExact 22050 25600 494 3894 = 25546 := by decide +kernel
/-- V-T7: the negative mean is truncated toward zero, and the phase wraps. -/
theorem test_tick_wraps :
    samplesOf (exec .tick (poolAt [voice 60 16384, free, free, free] 65535)) =
      some ([-15326, 0, 0, 0], -15326, -3831, 0) := by decide +kernel
/-- V-T13: mix_sum above int16. -/
theorem test_tick_four_voices :
    samplesOf (exec .tick (poolAt [voice 60 25600, voice 64 25600, voice 67 25600, voice 71 25600] 4)) =
      some ([7531, 9403, 11061, 13664], 41659, 10414, 5) := by decide +kernel
/-- V-T16, V-T17, V-T19: the mean is rounded toward zero. -/
theorem test_monoOf : (monoOf 4 (-7)).toInt = -1 ∧ (monoOf 4 7).toInt = 1 ∧ (monoOf 3 (-10)).toInt = -3 := by
  decide
/-- V-R4: a tick presented with RESET is lost. -/
theorem test_reset_excludes_tick :
    out (step { poolAt fullPool 7 with inputs := [⟨true, true, false, 0⟩] }) = some State.reset := by
  decide +kernel
/-- V-R1. -/
theorem test_reset : out (exec .reset { poolAt fullPool 3 with dstate := .h2, status := 0x90 }) =
    some State.reset := by decide +kernel
/-- V-O1: in one step the TICK sees the pool from before the BYTE. -/
theorem test_tick_before_byte :
    (out (step { decoderAt .a2s 0x9B 0x3C 0 with phase := 1, inputs := [⟨false, true, true, 0x40⟩] })).map
      (fun t => (t.frame.map BitVec.toInt, t.pool)) =
      some ([0, 0, 0, 0], [voice 60 16384, free, free, free]) := by decide +kernel
/-- The reset state's outputs, ports included (R220, R41, R42). -/
theorem test_reset_outputs :
    (outputs State.reset).capSampleRate = 22050 ∧ (outputs State.reset).capChannels = 4 ∧
    (outputs State.reset).capBits = 16 ∧ (outputs State.reset).evtValid = false ∧
    (outputs State.reset).voices = List.replicate 4 (0, false, 0) := by decide +kernel
/-- R64: low byte first. -/
theorem test_frameBytes : frameBytes [0x1234, 0xFFFF] = [0x34, 0x12, 0xFF, 0xFF] := by decide

/-! ## Witnesses: for each obligation with hypotheses, a state and operands that meet them -/

/-- A core with signals presented. -/
def withInputs (inputs : List StepInput) : State := { poolAt [voice 60 16384, free, free, free] 1 with inputs := inputs }

theorem witness_ResetStepExcludesByteAndTick :
    (withInputs [⟨true, true, true, 0x9B⟩]).inputs = ⟨true, true, true, 0x9B⟩ :: [] ∧
    (⟨true, true, true, 0x9B⟩ : StepInput).reset = true := ⟨rfl, rfl⟩
theorem witness_AfterResetSilentUntilANoteOn :
    let s := { State.reset with inputs := [⟨false, true, true, 0xFF⟩] }
    (∀ r ∈ s.pool, r = Slot.free) ∧ (nextInput s).tick = true ∧ (out (step s)).map State.evt = some none := by
  decide +kernel
/-- With an event that is a note-off: the premise on the event holds of it. -/
theorem witness_AfterResetSilentUntilANoteOn_event :
    let s := { decoderAt .a2s 0x80 0x3C 0 with inputs := [⟨false, false, true, 0x00⟩] }
    (∀ r ∈ s.pool, r = Slot.free) ∧ (out (step s)).map State.evt = some (some ⟨0x80, 0x3C, 0x00⟩) ∧
    classify s.cfg.noteOnMode 0x80 0x00 = .noteOff := by decide +kernel
theorem witness_StepRunsTheStrobedOperations :
    State.reset.inputs = [] ∧
    (withInputs [⟨true, false, false, 0⟩]).inputs = ⟨true, false, false, 0⟩ :: [] ∧
    (withInputs [⟨false, true, false, 0⟩]).inputs = ⟨false, true, false, 0⟩ :: [] ∧
    (withInputs [⟨false, false, true, 0x90⟩]).inputs = ⟨false, false, true, 0x90⟩ :: [] ∧
    (withInputs [⟨false, true, true, 0x90⟩]).inputs = ⟨false, true, true, 0x90⟩ :: [] ∧
    (withInputs [⟨false, false, false, 0⟩]).inputs = ⟨false, false, false, 0⟩ :: [] :=
  ⟨rfl, rfl, rfl, rfl, rfl, rfl⟩
theorem witness_TickThenByteInOneStep :
    (withInputs [⟨false, true, true, 0x40⟩, ⟨false, true, false, 0⟩]).inputs =
      ⟨false, true, true, 0x40⟩ :: ⟨false, true, false, 0⟩ :: [] := rfl
theorem witness_StateChangesOnlyByItsOperations :
    let i : StepInput := ⟨false, false, false, 0⟩
    (withInputs [i]).inputs = i :: [] ∧ i.reset = false ∧ i.byteStrobe = false ∧ i.tick = false :=
  ⟨rfl, rfl, rfl, rfl⟩
theorem witness_FetchedByteRuns :
    ((0 : Byte).toNat = 0 ∨ 8 ≤ (0 : Byte).toNat) ∧ ((8 : Byte).toNat = 0 ∨ 8 ≤ (8 : Byte).toNat) ∧
    ((255 : Byte).toNat = 0 ∨ 8 ≤ (255 : Byte).toNat) := by decide
theorem witness_DecodeOfEncode :
    (Instr.noteOnGeneral 15 127 1).wf = true ∧ (Instr.noteOnGeneral 15 127 1).mode = some .general ∧
    (Instr.noteOffReference 0x6F 0 0).wf = true ∧ (Instr.noteOffReference 0x6F 0 0).mode = some .reference ∧
    (Instr.byte 0xFF).wf = true ∧ (Instr.byte 0xFF).mode = none := by decide
theorem witness_EncodeOfDecode :
    decode .general (.event24 0x903C40) = .ok (.noteOnGeneral 0 60 64) ∧
    decode .reference (.event24 0xEF7F7F) = .ok (.noteOffReference 0x6F 127 127) := by decide
theorem witness_SongPositionEmitsNothing :
    exec .sysF2 State.reset = .next { State.reset with status := 0xF2, dstate := .a2f, evt := none } ∧
    ∃ u, exec (.data 0x10) { State.reset with status := 0xF2, dstate := .a2f, evt := none } = .next u :=
  ⟨rfl, _, rfl⟩
theorem witness_DataBytesByState :
    (decoderAt .idle 0 0 0).dstate = .idle ∧ (decoderAt .a1 0xC0 0 0).dstate = .a1 ∧
    (decoderAt .h1 0xC0 0 0).dstate = .h1 ∧ (decoderAt .a2f 0x90 0 0).dstate = .a2f ∧
    (decoderAt .h2 0x90 0 0).dstate = .h2 ∧ (decoderAt .sysex 0xF0 0 0).dstate = .sysex :=
  ⟨rfl, rfl, rfl, rfl, rfl, rfl⟩
theorem witness_StatusByteResynchronises :
    (0x80 ≤ (0x80 : Byte).toNat ∧ (0x80 : Byte).toNat ≤ 0xF7) ∧
    (0x80 ≤ (0xF7 : Byte).toNat ∧ (0xF7 : Byte).toNat ≤ 0xF7) := by decide
/-- W4's sequence, with an odd last byte. -/
theorem witness_OneEventPerCompletePair :
    isTwoParamStatus 0x90 = true ∧ ([(0x3C, 0x40), (0x3E, 0x50)] : List (Data7 × Data7)) ≠ [] ∧
    ([0x90, 0x3C, 0xF8, 0x40, 0x3E, 0x50, 0xFF, 0x41] : List Byte).filter (fun b => decide (b.toNat < 0xF8)) =
      0x90 :: ([(0x3C, 0x40), (0x3E, 0x50)] : List (Data7 × Data7)).flatMap
        (fun p => [0#1 ++ p.1, 0#1 ++ p.2]) ++ ((some 0x41 : Option Data7).map (fun d => 0#1 ++ d)).toList := by
  decide
theorem witness_OneParameterMessagesAreSilent :
    isOneParamStatus 0xC0 = true ∧ isOneParamStatus 0xDF = true ∧ isOneParamStatus 0xF1 = true ∧
    isOneParamStatus 0xF3 = true := by decide
theorem witness_ClassificationTables :
    isTwoParamStatus 0x80 = true ∧ isTwoParamStatus 0x8F = true ∧ isTwoParamStatus 0x90 = true ∧
    isTwoParamStatus 0x9F = true ∧ isTwoParamStatus 0xA0 = true ∧ isTwoParamStatus 0xBF = true ∧
    isTwoParamStatus 0xE0 = true ∧ isTwoParamStatus 0xEF = true := by decide
theorem witness_AllocatorRunsTheDecodedEventRow :
    (decoderAt .a2s 0x9B 0x3C 0).dstate = .a2s ∧ isTwoParamStatus (decoderAt .a2s 0x9B 0x3C 0).status = true := by
  decide +kernel
/-- A sounding note, a free lowest slot with k = 0 and k = 3, and a full pool. -/
theorem witness_NoteOnTakesTheLowestFreeSlot :
    isNoteOnRow (.noteOnGeneral 3 60 1) (poolAt fullPool 0).cfg.noteOnMode 60 1 ∧
    isNoteOnRow (.noteOnReference 60 0) (referenceAt fullPool).cfg.noteOnMode 60 0 ∧
    sounds 60 (poolAt fullPool 0) ∧ ¬sounds 67 (poolAt fullPool 0) ∧
    (∀ r ∈ (poolAt fullPool 0).pool, r.active = true) ∧
    (poolAt [free, free, free, free] 0).pool[0]? = some free ∧
    (poolAt [voice 1 0, voice 2 0, voice 3 0, free] 0).pool[3]? = some free ∧ free.active = false :=
  ⟨.inl ⟨rfl, by decide, 3, rfl⟩, .inr ⟨rfl, rfl⟩, ⟨voice 60 25600, by decide, rfl, rfl⟩,
    by unfold sounds; decide, by decide, rfl, rfl, rfl⟩
theorem witness_NoteOffFreesTheMatchingSlot :
    isNoteOffRow (.noteOffGeneral9nV0 0 62) (poolAt fullPool 0).cfg.noteOnMode 62 ∧
    isNoteOffRow (.noteOffGeneral8n 15 62 127) (poolAt fullPool 0).cfg.noteOnMode 62 ∧
    isNoteOffRow (.noteOffReference 0x10 62 0) (referenceAt fullPool).cfg.noteOnMode 62 ∧
    ¬sounds 61 (poolAt fullPool 0) ∧
    (poolAt fullPool 0).pool[1]? = some (voice 62 25600) ∧ (voice 62 25600).active = true ∧
    (voice 60 25600).note ≠ 62 :=
  ⟨.inl ⟨rfl, 0, rfl⟩, .inr (.inl ⟨rfl, 15, 127, rfl⟩), .inr (.inr ⟨rfl, 0x10, 0, rfl, by decide⟩),
    by unfold sounds; decide, rfl, rfl, by decide⟩
theorem witness_IgnoredMessagesChangeNothing : State.reset.cfg.noteOnMode = .general := rfl
theorem witness_EventRowsWriteOnlyThePool :
    isEventRow (.ignoreGeneralEn 0 0 0) ∧ isEventRow (.noteOffReference 0 0 0) := ⟨rfl, rfl⟩

/-- The invariant of a state with no event and silent outputs, from its decidable parts. -/
theorem coreInv_of_parts {s : State} (hEvt : s.evt = none) (hFrame : s.frame = List.replicate s.cfg.n 0)
    (hMix : s.mixSum = 0) (hMono : s.mono = 0)
    (h : s.pool.length = s.cfg.n ∧ notesDistinct s.pool ∧ (∀ r ∈ s.pool, slotFits r = true) ∧
      s.phase < 2 ^ s.cfg.phaseBits ∧ statusFits s.dstate s.status = true) : CoreInv s := by
  obtain ⟨h1, h2, h3, h4, h5⟩ := h
  refine ⟨h1, h2, h3, h4, h5, by simp [hEvt], by simp [hFrame], ?_, by simp [hFrame, hMix], by simp [hMono, hMix]⟩
  intro x hx
  rw [hFrame, List.mem_replicate] at hx
  rw [hx.2]
  decide

/-- A pool with a free slot above a voice, at the last phase. -/
theorem witness_inv_pool : CoreInv (poolAt [voice 60 32512, free, voice 0 0, free] 65535) :=
  coreInv_of_parts rfl rfl rfl rfl (by unfold notesDistinct; decide +kernel)
/-- The same in REFERENCE mode. -/
theorem witness_inv_reference : CoreInv (referenceAt [voice 60 0, free, free, free]) :=
  coreInv_of_parts rfl rfl rfl rfl (by unfold notesDistinct; decide +kernel)
theorem witness_inv_reset : CoreInv State.reset :=
  coreInv_of_parts rfl rfl rfl rfl (by unfold notesDistinct; decide +kernel)

/-- The invariant of a state whose decoder registers are others that fit, with no event. -/
theorem coreInv_with_decoder {s : State} (h : CoreInv s) {d : DState} {status : Byte}
    (hf : statusFits d status = true) (d1 d2 : Data7) :
    CoreInv { s with dstate := d, status := status, data1 := d1, data2 := d2, evt := none } :=
  ⟨h.1, h.2, h.3, h.4, hf, by simp, h.7, h.8, h.9, h.10⟩

/-- The invariant of a state that shows the event of the message just completed. -/
theorem coreInv_with_event {s : State} (h : CoreInv s) (h2 : s.dstate = .h2)
    (ht : isTwoParamStatus s.status = true) :
    CoreInv { s with evt := some ⟨s.status, s.data1, s.data2⟩ } :=
  ⟨h.1, h.2, h.3, h.4, h.5, fun m hm => by
    obtain rfl : (⟨s.status, s.data1, s.data2⟩ : ChannelMessage) = m := by simpa using hm
    exact ⟨ht, rfl, h2⟩, h.7, h.8, h.9, h.10⟩

/-- In A2S, under a channel status and under 0xF2. -/
theorem witness_inv_a2s : CoreInv (decoderAt .a2s 0xEF 0x3C 0) ∧ CoreInv (decoderAt .a2s 0xF2 0x3C 0) :=
  ⟨coreInv_with_decoder witness_inv_reset (by decide) _ _,
    coreInv_with_decoder witness_inv_reset (by decide) _ _⟩
/-- Right after an event: the event is the message just completed. -/
theorem witness_inv_event :
    CoreInv { decoderAt .h2 0x90 0x3C 0x40 with evt := some ⟨0x90, 0x3C, 0x40⟩ } :=
  coreInv_with_event (s := decoderAt .h2 0x90 0x3C 0x40)
    (coreInv_with_decoder witness_inv_reset (by decide) _ _) rfl (by decide)

theorem witness_SecondDataByteCompletesTheMessage :
    (decoderAt .a2s 0x80 0x3C 0).dstate = .a2s ∧
    (0x80 ≤ (decoderAt .a2s 0x80 0x3C 0).status.toNat ∧ (decoderAt .a2s 0x80 0x3C 0).status.toNat ≤ 0xEF) ∧
    (0x80 ≤ (decoderAt .a2s 0xEF 0x3C 0).status.toNat ∧ (decoderAt .a2s 0xEF 0x3C 0).status.toNat ≤ 0xEF) ∧
    ¬(0x80 ≤ (decoderAt .a2s 0xF2 0x3C 0).status.toNat ∧ (decoderAt .a2s 0xF2 0x3C 0).status.toNat ≤ 0xEF) ∧
    CoreInv (decoderAt .a2s 0xEF 0x3C 0) :=
  ⟨rfl, by decide +kernel, by decide +kernel, by decide +kernel, witness_inv_a2s.1⟩
theorem witness_NoteOnThenNoteOffRestores :
    let s := poolAt [voice 60 32512, free, voice 0 0, free] 65535
    CoreInv s ∧ isNoteOnRow (.noteOnGeneral 0 67 100) s.cfg.noteOnMode 67 100 ∧
    isNoteOffRow (.noteOffGeneral8n 0 67 0) s.cfg.noteOnMode 67 ∧ ¬sounds 67 s ∧
    ∃ r ∈ s.pool, r.active = false :=
  ⟨witness_inv_pool, .inl ⟨rfl, by decide, 0, rfl⟩, .inr (.inl ⟨rfl, 0, 0, rfl⟩),
    by unfold sounds; decide, free, by decide, rfl⟩
/-- A step whose event is a note-off of another note. -/
theorem witness_VoiceSoundsUntilItsNoteOff :
    let s := { decoderAt .a2s 0x80 0x3E 0 with
      pool := [voice 60 16384, free, free, free], inputs := [⟨false, true, true, 0x00⟩] }
    s.pool[0]? = some (voice 60 16384) ∧ (voice 60 16384).active = true ∧ (nextInput s).reset = false ∧
    (out (step s)).map State.evt = some (some ⟨0x80, 0x3E, 0x00⟩) ∧ (0x3E : Data7) ≠ 60 := by
  decide +kernel
/-- The event and the slot the allocator selects, for a BYTE that completes a message. -/
def completing (status : Byte) (n : Data7) (pool : List Slot) (b : Byte) :
    Option (Option ChannelMessage × Option Nat) :=
  let s := { decoderAt .a2s status n 0 with pool := pool }
  (out (exec (.byte b) s)).map (fun t => (t.evt, t.evt.bind (writtenSlot s)))
/-- No event; a note-on at slot 0 and at slot N-1; a duplicate and a full pool. -/
theorem witness_ByteWritesAtMostOneSlot_noteOn :
    (out (exec (.byte 0x90) State.reset)).map State.evt = some none ∧
    completing 0x90 60 [free, free, free, free] 0x40 = some (some ⟨0x90, 60, 0x40⟩, some 0) ∧
    completing 0x90 60 [voice 1 0, voice 2 0, voice 3 0, free] 0x40 = some (some ⟨0x90, 60, 0x40⟩, some 3) ∧
    completing 0x90 62 [free, voice 62 20480, free, free] 0x50 = some (some ⟨0x90, 62, 0x50⟩, none) ∧
    completing 0x90 67 fullPool 0x64 = some (some ⟨0x90, 67, 0x64⟩, none) := by decide +kernel
/-- A note-off at slot 0 and at slot N-1; an absent note; class IGNORE. -/
theorem witness_ByteWritesAtMostOneSlot_noteOff :
    completing 0x80 60 fullPool 0x00 = some (some ⟨0x80, 60, 0⟩, some 0) ∧
    completing 0x90 65 fullPool 0x00 = some (some ⟨0x90, 65, 0⟩, some 3) ∧
    completing 0x80 61 fullPool 0x00 = some (some ⟨0x80, 61, 0⟩, none) ∧
    completing 0xB0 60 fullPool 0x00 = some (some ⟨0xB0, 60, 0⟩, none) := by decide +kernel
theorem witness_OscillatorIsExact : 0 < 1 ∧ 0 < 22050 := by decide
theorem witness_OscillatorZeroCrossings : 11025 ∣ 440 * 2205 ∧ 11025 ∣ 5 * 2205 ∧ 11025 ∣ 262 * 0 := by decide
theorem witness_TickComputesTheFrame :
    let s := poolAt [voice 60 32512, free, free, voice 127 32512] 1
    s.pool[3]? = some (voice 127 32512) ∧
    -32768 ≤ oscExact s.cfg.fs (voice 127 32512).amp.toNat (freq s.cfg 127) s.phase ∧
    oscExact s.cfg.fs (voice 127 32512).amp.toNat (freq s.cfg 127) s.phase ≤ 32767 := by decide +kernel
theorem witness_TickOutputsExactSineSamples :
    CoreInv (poolAt [voice 60 32512, free, voice 0 0, free] 65535) ∧
    (poolAt [voice 60 32512, free, voice 0 0, free] 65535).pool[0]? = some (voice 60 32512) :=
  ⟨witness_inv_pool, rfl⟩
theorem witness_MixAndMonoFitTheirPorts : CoreInv (poolAt [voice 60 32512, free, voice 0 0, free] 65535) :=
  witness_inv_pool
theorem witness_PhaseAdvancesByOne :
    (poolAt fullPool 65535).cfg.phaseBits = 16 ∧ (poolAt fullPool 65535).phase = 65535 := ⟨rfl, rfl⟩
theorem witness_TickIsMemoryless :
    (poolAt fullPool 7).cfg = State.reset.cfg ∧
    (poolAt fullPool 7).phase = { poolAt fullPool 7 with dstate := .sysex, mono := 5 }.phase ∧
    (poolAt fullPool 7).pool = { poolAt fullPool 7 with dstate := .sysex, mono := 5 }.pool := ⟨rfl, rfl, rfl⟩
theorem witness_SilentSlotsGiveZero :
    (CoreInv State.reset ∧ ∀ r ∈ State.reset.pool, r.active = false) ∧
    (poolAt [voice 11 25600] 1).pool[0]? = some (voice 11 25600) ∧ (voice 11 25600).note.toNat < 12 ∧
    (voice 60 0).amp = 0 :=
  ⟨⟨witness_inv_reset, by decide +kernel⟩, rfl, by decide, rfl⟩
theorem witness_OutputsRepeatAfterTheModulus :
    (poolAt fullPool 65535).phase < 2 ^ (poolAt fullPool 65535).cfg.phaseBits ∧ 1 ≤ 1 := by decide +kernel
theorem witness_TickAndByteCommute :
    poolOf (exec (.byte 0x90) (poolAt fullPool 1)) = some (poolAt fullPool 1).pool := by decide +kernel
theorem witness_FeederAndConsumerShareOnlyThePool :
    Instr.byte 0x40 ≠ .tick ∧ Instr.byte 0x40 ≠ .reset := by decide
theorem witness_TableReadsAreInRange : (11 : Data7).toNat < 12 := by decide
theorem witness_DefaultTableIsEqualTempered : 12 ≤ 127 ∧ 127 < 128 ∧ 11 < 12 := by decide
theorem witness_FrameBytesAreLittleEndian : ([5, 6] : List Sample)[1]? = some 6 := rfl
theorem witness_CapabilityPortsAreConstant : State.reset.cfg.fs < 2 ^ 32 ∧ State.reset.cfg.n < 2 ^ 32 := by
  decide +kernel
theorem witness_PortsShowTheEventAndThePool :
    State.reset.evt = none ∧
    { State.reset with evt := some ⟨0x90, 0x3C, 0x40⟩ }.evt = some ⟨0x90, 0x3C, 0x40⟩ ∧
    (poolAt fullPool 0).pool[3]? = some (voice 65 25600) := ⟨rfl, rfl, rfl⟩
theorem witness_EveryOperationKeepsInv :
    CoreInv (referenceAt [voice 60 0, free, free, free]) ∧
    CoreInv { decoderAt .h2 0x90 0x3C 0x40 with evt := some ⟨0x90, 0x3C, 0x40⟩ } :=
  ⟨witness_inv_reference, witness_inv_event⟩
theorem witness_EveryStepKeepsInv : CoreInv (poolAt [voice 60 32512, free, voice 0 0, free] 65535) :=
  witness_inv_pool

end Sys2Proof.Tests
end

section
/-! Invariants of the operations carried over to whole steps, and the first of them: no operation writes a construction-time parameter (00_scope.md R13). -/

namespace Sys2Proof.Machine

section
variable {P : State → Prop} (hexec : ∀ (i : Instr) (s : State), P s → ∃ t, exec i s = .next t ∧ P t)
include hexec

/-- What every operation keeps, a list of operations keeps. -/
theorem runInstrs_keeps (is : List Instr) {s : State} (hs : P s) :
    ∃ t, runInstrs is s = .next t ∧ P t := by
  induction is generalizing s with
  | nil => exact ⟨s, rfl, hs⟩
  | cons i rest ih =>
    obtain ⟨u, hu, hPu⟩ := hexec i s hs
    rw [runInstrs, hu]
    exact ih hPu

/-- What every operation keeps, a step keeps from the moment its input is taken. -/
theorem step_keeps {s : State} (hs : P (takeInput s)) : ∃ t, step s = .next t ∧ P t :=
  runInstrs_keeps hexec _ hs

end

/-- R13 for one operation: the frame of the update its row makes. -/
theorem exec_keeps_cfg (i : Instr) (s : State) : ∃ t, exec i s = .next t ∧ t.cfg = s.cfg := by
  cases i with
  | data v => exact ⟨_, rfl, (dataByte_frame v s).cfg⟩
  | byte b =>
    obtain ⟨t, ht⟩ := execByte_next b s
    exact ⟨t, ht, (execByte_frame ht).cfg⟩
  | noteOnGeneral | noteOffGeneral9nV0 | noteOffGeneral8n | ignoreGeneralAnBn | ignoreGeneralEn
  | noteOnReference | noteOffReference => exact ⟨_, rfl, alloc_cfg _ s⟩
  | stNoteOff | stNoteOn | stPolyPressure | stControlChange | stProgramChange | stChannelPressure
  | stPitchBend | sysExStart | sysF1 | sysF2 | sysF3 | sysF4 | sysF5 | sysF6 | sysExEnd =>
    exact ⟨_, rfl, latchStatus_cfg _ _ s⟩
  | realtime => exact ⟨_, rfl, emit_cfg none s⟩
  | tick => exact ⟨_, rfl, tickState_cfg s⟩
  | reset => exact ⟨_, rfl, initial_cfg s.cfg s.inputs⟩

/-- Settles O7: the equality with the first state's parameters is an invariant of every operation, hence
of the operations of a step. -/
theorem parametersNeverChange : Obligations.ParametersNeverChange := by
  refine ⟨exec_keeps_cfg, fun s => step_keeps (P := fun t => t.cfg = s.cfg) ?_ (takeInput_cfg s)⟩
  intro i u hu
  obtain ⟨t, ht, hcfg⟩ := exec_keeps_cfg i u
  exact ⟨t, ht, hcfg.trans hu⟩

end Sys2Proof.Machine
end

section
/-! The invariant of the core (10_state.md R26 to R28): it holds after RESET, and each state operation, hence every operation and every step, keeps it. -/

namespace Sys2Proof.Machine

/-! ## The status a decoder state goes with -/

/-- Two-parameter channel statuses lead to A2F (R110 to R113, R116). -/
theorem statusFits_a2f_statusByte : ∀ t : BitVec 4, t ∈ [0x8, 0x9, 0xA, 0xB, 0xE] →
    ∀ c : Channel, statusFits .a2f (statusByte t c) = true := by
  decide +kernel

/-- One-parameter channel statuses lead to A1 (R114, R115). -/
theorem statusFits_a1_statusByte : ∀ t : BitVec 4, t ∈ [0xC, 0xD] →
    ∀ c : Channel, statusFits .a1 (statusByte t c) = true := by
  decide +kernel

/-- The status a BYTE latches fits the decoder state it leads to. -/
theorem statusFits_statusTarget {b : Byte} {d : DState} (hd : statusTarget (classifyByte b) = some d) :
    statusFits d b = true := by
  have hall : ∀ b : Byte, (statusTarget (classifyByte b)).all (fun d => statusFits d b) = true := by
    decide +kernel
  have h := hall b
  rwa [hd] at h

/-- Among the statuses of A2S, those under which a message is emitted are the two-parameter channel
statuses: 0xF2 emits nothing (R122). -/
theorem isTwoParamStatus_of_a2s {st : Byte} (hf : statusFits .a2s st = true)
    (hc : isChannelStatus st = true) : isTwoParamStatus st = true := by
  simp only [statusFits, Bool.or_eq_true, beq_iff_eq] at hf
  rcases hf with h | rfl
  · exact h
  · exact absurd hc (by decide)

/-! ## Reset and the decoder -/

/-- The reset values meet the invariant, for all parameters and whatever is presented later (R220). -/
theorem coreInv_initial (cfg : Params) (inputs : List StepInput) :
    CoreInv (State.initial cfg inputs) where
  poolLength := by simp
  notes := List.pairwise_replicate.mpr (.inr fun ha => by simp [Slot.free] at ha)
  slots r hr := by rw [List.eq_of_mem_replicate hr]; exact slotFits_free
  phaseRange := by simp
  statusState := rfl
  event := nofun
  frameLength := by simp
  frameRange x hx := by rw [List.eq_of_mem_replicate hx]; decide
  mixExact := by simp
  monoExact := by simp

section
variable {s : State} (h : CoreInv s)
include h

/-- The invariant asks of the decoder's registers and the event port only that STATUS fits DSTATE and
that an event is the message just completed. -/
theorem coreInv_setDecoder {d : DState} {st : Byte} {d1 d2 : Data7} {ev : Option ChannelMessage}
    (hf : statusFits d st = true)
    (he : ∀ m, ev = some m → isTwoParamStatus m.status = true ∧ m = ⟨st, d1, d2⟩ ∧ d = .h2) :
    CoreInv { s with dstate := d, status := st, data1 := d1, data2 := d2, evt := ev } :=
  { h with statusState := hf, event := he }

theorem coreInv_emit_none : CoreInv (emit none s) := coreInv_setDecoder h h.statusState nofun

theorem coreInv_takeInput : CoreInv (takeInput s) := { coreInv_emit_none h with }

theorem coreInv_latchStatus {b : Byte} {d : DState} (hf : statusFits d b = true) :
    CoreInv (latchStatus b d s) := coreInv_setDecoder h hf nofun

theorem coreInv_storeData1 (v : Data7) (hf : statusFits .a2s s.status = true) :
    CoreInv (storeData1 v s) := coreInv_setDecoder h hf nofun

/-! ## The allocator and the BYTE -/

theorem coreInv_alloc (m : ChannelMessage) : CoreInv (alloc m s) := by
  obtain ⟨hlen, hnotes, hslots⟩ := alloc_keeps_pool m s h.notes h.slots
  rw [alloc_eq]
  exact { h with poolLength := hlen.trans h.poolLength, notes := hnotes, slots := hslots }

/-- R122: the event is the message just completed, under a status of two parameters. -/
theorem coreInv_completeMessage (v : Data7) (hd : s.dstate = .a2s) :
    CoreInv (completeMessage v s) := by
  have hf : statusFits .a2s s.status = true := hd ▸ h.statusState
  cases hc : isChannelStatus s.status with
  | true =>
    rw [completeMessage_channel v hc]
    refine coreInv_alloc (coreInv_setDecoder h (d := .h2) hf ?_) _
    rintro m ⟨⟩
    exact ⟨isTwoParamStatus_of_a2s hf hc, rfl, rfl⟩
  | false =>
    rw [completeMessage_other v hc]
    exact coreInv_setDecoder h (d := .h2) hf nofun

theorem coreInv_dataByte (v : Data7) : CoreInv (dataByte v s) := by
  have hf := h.statusState
  cases hd : s.dstate <;> simp only [dataByte, hd] <;> rw [hd] at hf
  case idle | h1 | sysex => exact coreInv_emit_none h
  case a1 => exact coreInv_setDecoder h (d := .h1) hf nofun
  case a2f | h2 => exact coreInv_storeData1 h v hf
  case a2s => exact coreInv_completeMessage h v hd

theorem coreInv_execByte (b : Byte) : ∃ t, execByte b s = .next t ∧ CoreInv t := by
  refine ⟨_, execByte_eq b s, ?_⟩
  split
  · next d hd => exact coreInv_latchStatus h (statusFits_statusTarget hd)
  · split
    · exact coreInv_dataByte h _
    · exact coreInv_emit_none h

/-! ## The TICK -/

/-- The samples of a pool of reachable slots are in -32512..32512 (R173). -/
theorem frameOf_range (p : Nat) :
    ∀ x ∈ frameOf s.cfg p s.pool, -32512 ≤ x.toInt ∧ x.toInt ≤ 32512 := by
  intro x hx
  obtain ⟨r, hr, rfl⟩ := List.mem_map.mp hx
  have hfits := h.slots r hr
  simp only [slotFits, Bool.and_eq_true, decide_eq_true_eq] at hfits
  obtain ⟨⟨-, hamp⟩, -⟩ := hfits
  exact (slotSample_toInt s.cfg p hamp).2

theorem frameOf_length (p : Nat) : (frameOf s.cfg p s.pool).length = s.cfg.n := by
  simp [frameOf, h.poolLength]

/-- The mean of such a frame fits its port (R177). -/
theorem monoOf_frameOf_toInt (p : Nat) :
    (monoOf s.cfg.n (mixOf (frameOf s.cfg p s.pool))).toInt =
      (mixOf (frameOf s.cfg p s.pool)).tdiv s.cfg.n := by
  obtain ⟨hlo, hhi⟩ := mixOf_bounds _ (frameOf_range h p)
  rw [frameOf_length h p] at hlo hhi
  exact monoOf_toInt s.cfg.n_pos (by omega) (by omega)

theorem coreInv_tickState : CoreInv (tickState s) :=
  { h with
    phaseRange := Nat.mod_lt _ (Nat.two_pow_pos _)
    frameLength := frameOf_length h s.phase
    frameRange := frameOf_range h s.phase
    mixExact := rfl
    monoExact := monoOf_frameOf_toInt h s.phase }

end

/-! ## The settled statements -/

/-- Settles O55: RESET answers the reset values. -/
theorem invHoldsAfterReset : Obligations.InvHoldsAfterReset :=
  ⟨coreInv_initial _ _, fun s => ⟨_, rfl, coreInv_initial s.cfg s.inputs⟩⟩

/-- Settles O56: each row is one of the state operations above. -/
theorem everyOperationKeepsInv : Obligations.EveryOperationKeepsInv := by
  intro i s h
  cases i with
  | data v => exact ⟨_, rfl, coreInv_dataByte h v⟩
  | byte b => exact coreInv_execByte h b
  | stNoteOff c | stNoteOn c | stPolyPressure c | stControlChange c | stPitchBend c =>
    exact ⟨_, rfl, coreInv_latchStatus h (statusFits_a2f_statusByte _ (by decide) c)⟩
  | stProgramChange c | stChannelPressure c =>
    exact ⟨_, rfl, coreInv_latchStatus h (statusFits_a1_statusByte _ (by decide) c)⟩
  | sysExStart | sysF1 | sysF2 | sysF3 | sysF4 | sysF5 | sysF6 | sysExEnd =>
    exact ⟨_, rfl, coreInv_latchStatus h (by decide)⟩
  | realtime => exact ⟨_, rfl, coreInv_emit_none h⟩
  | noteOnGeneral | noteOffGeneral9nV0 | noteOffGeneral8n | ignoreGeneralAnBn | ignoreGeneralEn
  | noteOnReference | noteOffReference => exact ⟨_, rfl, coreInv_alloc h _⟩
  | tick => exact ⟨_, rfl, coreInv_tickState h⟩
  | reset => exact ⟨_, rfl, coreInv_initial s.cfg s.inputs⟩

/-- Settles O57: taking the input keeps the invariant, and so does each operation it selects. -/
theorem everyStepKeepsInv : Obligations.EveryStepKeepsInv :=
  fun _ h => step_keeps everyOperationKeepsInv (coreInv_takeInput h)

end Sys2Proof.Machine
end

section
/-! What a step does with the signals presented to it (10_state.md R33 to R37), what it leaves unchanged, and what its ports show (R37, R41, R42). -/

namespace Sys2Proof.Machine

/-! ## The operations of a step -/

@[simp] theorem runInstrs_singleton (i : Instr) (s : State) : runInstrs [i] s = exec i s := by
  rw [runInstrs]
  cases exec i s <;> rfl

/-- The state in which a step that does not reset comes to its BYTE: after the TICK when `tick` is
driven (R36). -/
def beforeByte (i : StepInput) (s : State) : State := if i.tick then tickState s else s

theorem beforeByte_of_tick {i : StepInput} (ht : i.tick = true) (s : State) :
    beforeByte i s = tickState s := if_pos ht

theorem beforeByte_of_not_tick {i : StepInput} (ht : i.tick = false) (s : State) :
    beforeByte i s = s := by simp [beforeByte, ht]

/-- The TICK half of a step is invisible to the decoder, the pool and the mode (R72). -/
theorem beforeByte_sameDecoder (i : StepInput) (s : State) : SameDecoder (beforeByte i s) s := by
  unfold beforeByte
  split <;> exact ⟨rfl, rfl, rfl, rfl, rfl, rfl⟩

@[simp] theorem beforeByte_evt (i : StepInput) (s : State) : (beforeByte i s).evt = s.evt := by
  unfold beforeByte
  split <;> rfl

@[simp] theorem beforeByte_inputs (i : StepInput) (s : State) :
    (beforeByte i s).inputs = s.inputs := by
  unfold beforeByte
  split <;> rfl

/-- R33, R34, R36: without a reset the operations of a step are the TICK, then the BYTE. -/
theorem runInstrs_decodeStep {i : StepInput} (hr : i.reset = false) (s : State) :
    runInstrs (decodeStep i) s =
      if i.byteStrobe then exec (.byte i.byteIn) (beforeByte i s) else .next (beforeByte i s) := by
  rw [decodeStep, if_neg (by simp [hr])]
  cases ht : i.tick
  · rw [beforeByte_of_not_tick ht]
    cases i.byteStrobe
    · rfl
    · exact runInstrs_singleton _ s
  · rw [beforeByte_of_tick ht]
    cases i.byteStrobe
    · rfl
    · exact runInstrs_singleton _ (tickState s)

section
variable {s : State} {i : StepInput} {rest : List StepInput} (hin : s.inputs = i :: rest)
include hin

theorem nextInput_of_inputs : nextInput s = i := by simp [nextInput, hin]

theorem takeInput_of_inputs : takeInput s = { s with inputs := rest, evt := none } := by
  simp [takeInput, emit, hin]

theorem step_of_reset (hr : i.reset = true) : step s = exec .reset (takeInput s) := by
  rw [step, nextInput_of_inputs hin, decodeStep, if_pos hr, runInstrs_singleton]

/-- A step with its byte strobe driven is its BYTE, after the TICK when there is one. -/
theorem step_of_byteStrobe (hr : i.reset = false) (hb : i.byteStrobe = true) :
    step s = exec (.byte i.byteIn) (beforeByte i (takeInput s)) := by
  rw [step, nextInput_of_inputs hin, runInstrs_decodeStep hr, if_pos hb]

theorem step_of_no_byteStrobe (hr : i.reset = false) (hb : i.byteStrobe = false) :
    step s = .next (beforeByte i (takeInput s)) := by
  rw [step, nextInput_of_inputs hin, runInstrs_decodeStep hr, if_neg (by simp [hb])]

end

/-- With nothing presented a step only ends the event output (R211). -/
theorem step_of_inputs_nil {s : State} (hin : s.inputs = []) : step s = .next { s with evt := none } := by
  have hn : nextInput s = StepInput.idle := by simp [nextInput, hin]
  have ht : takeInput s = { s with evt := none } := by simp [takeInput, emit, hin]
  rw [step, hn, ht]
  rfl

/-- Settles O3: the one operation of such a step is RESET (R35). -/
theorem resetStepExcludesByteAndTick : Obligations.ResetStepExcludesByteAndTick := by
  intro s i rest hin hr
  rw [step_of_reset hin hr, takeInput_of_inputs hin]
  rfl

/-- Settles O4, by the strobes. -/
theorem stepRunsTheStrobedOperations : Obligations.StepRunsTheStrobedOperations := by
  refine fun s => ⟨step_of_inputs_nil, fun i rest hin => ?_⟩
  rw [← takeInput_of_inputs hin]
  refine ⟨step_of_reset hin, fun hr ht hb => ?_, fun hr ht hb => ?_, fun hr ht hb => ?_,
    fun hr ht hb => ?_⟩
  · rw [step_of_no_byteStrobe hin hr hb, beforeByte_of_tick ht]
    rfl
  · rw [step_of_byteStrobe hin hr hb, beforeByte_of_not_tick ht]
  · refine ⟨tickState (takeInput s), rfl, ?_⟩
    rw [step_of_byteStrobe hin hr hb, beforeByte_of_tick ht]
  · rw [step_of_no_byteStrobe hin hr hb, beforeByte_of_not_tick ht]

/-! ## What a step leaves unchanged -/

/-- Settles O5: the TICK is invisible to the BYTE, and the BYTE to the frame and the phase; the next
step's TICK starts from the state both have left. -/
theorem tickThenByteInOneStep : Obligations.TickThenByteInOneStep := by
  intro s b rest hin
  obtain ⟨u, hu⟩ := execByte_next b s
  obtain ⟨t, ht⟩ := execByte_next b (tickState (takeInput s))
  have hframe := execByte_frame ht
  have hsame : SameDecoder (tickState (takeInput s)) s := ⟨rfl, rfl, rfl, rfl, rfl, rfl⟩
  obtain ⟨hdec, hevt⟩ := execByte_congr b hsame ht hu
  have hstep : step s = .next t := (step_of_byteStrobe hin rfl rfl).trans ht
  have htin : t.inputs = ⟨false, true, false, 0⟩ :: rest := by rw [hframe.inputs]; simp [hin]
  refine ⟨t, u, tickState (takeInput t), hstep, hu, step_of_no_byteStrobe htin rfl rfl,
    hframe.frame, hdec.pool, hevt, ?_⟩
  simp [hframe.cfg, hframe.phase, hdec.pool]

/-- Settles O8: with no byte strobe the step is at most a TICK, which keeps the decoder and the pool;
with no tick strobe it is at most a BYTE, whose frame holds the phase and the samples. -/
theorem stateChangesOnlyByItsOperations : Obligations.StateChangesOnlyByItsOperations := by
  intro s i rest hin hr
  cases hb : i.byteStrobe with
  | false =>
    obtain ⟨-, hdstate, hstatus, hdata1, hdata2, hpool⟩ := beforeByte_sameDecoder i (takeInput s)
    refine ⟨_, step_of_no_byteStrobe hin hr hb, by simp [hin],
      fun _ => ⟨hdstate, hstatus, hdata1, hdata2, hpool, by simp⟩, fun ht => ?_⟩
    simp [beforeByte_of_not_tick ht]
  | true =>
    obtain ⟨t, ht⟩ := execByte_next i.byteIn (beforeByte i (takeInput s))
    have hframe := execByte_frame ht
    refine ⟨t, (step_of_byteStrobe hin hr hb).trans ht, by simp [hframe.inputs, hin], nofun,
      fun htick => ?_⟩
    rw [beforeByte_of_not_tick htick] at hframe
    exact ⟨hframe.phase, hframe.frame, hframe.mixSum, hframe.mono⟩

/-! ## Table words -/

/-- R100: BYTE is the operation of its byte's class. -/
theorem exec_byte_eq_exec_decodeByte (b : Byte) (s : State) :
    exec (.byte b) s = exec (decodeByte b) s := by
  change execByte b s = _
  unfold execByte decodeByte
  cases classifyByte b <;> rfl

/-- Outside 1 to 7 an 8-bit table word is read as an input byte (log 11). -/
theorem codeOfTableWord_byte {b : Byte} (hb : b.toNat = 0 ∨ 8 ≤ b.toNat) :
    codeOfTableWord 8 b.toNat = some (.byte8 b) := by
  have hw : ¬(b.toNat < 8 ∧ b.toNat ≠ 0) := by omega
  simp [codeOfTableWord, hw]

/-- Settles O9: the word is read as the byte, which the next step then takes as its BYTE. -/
theorem fetchedByteRuns : Obligations.FetchedByteRuns := by
  intro s b hb
  have hcode := codeOfTableWord_byte hb
  constructor
  · rw [decodeTableWord, hcode]
    rfl
  · rw [State.withFetchWord, hcode, ← exec_byte_eq_exec_decodeByte]
    exact step_of_byteStrobe (i := ⟨false, false, true, b⟩) (rest := s.inputs) rfl rfl rfl

/-! ## Ports -/

theorem port32_toNat {v : Nat} (hv : v < 2 ^ 32) : (port32 v).toNat = v := by
  rw [port32, if_pos hv, BitVec.toNat_ofNat, Nat.mod_eq_of_lt hv]

/-- Settles O53: the ports are functions of the parameters, which no step changes (R13). -/
theorem capabilityPortsAreConstant : Obligations.CapabilityPortsAreConstant := by
  intro s
  obtain ⟨t, ht, hcfg⟩ := parametersNeverChange.2 s
  exact ⟨port32_toNat, port32_toNat, rfl, t, ht, congrArg (fun cfg : Params => port32 cfg.fs) hcfg,
    congrArg (fun cfg : Params => port32 cfg.n) hcfg, rfl⟩

theorem poolRead_of_getElem? {s : State} {j : Nat} {r : Slot} (hr : s.pool[j]? = some r) :
    poolRead s j = r := by
  simp [poolRead, hr]

/-- Settles O54: the event ports by the event output, the voice ports by the slot they read. -/
theorem portsShowTheEventAndThePool : Obligations.PortsShowTheEventAndThePool := by
  refine fun s => ⟨fun he => ?_, fun m he => ?_, fun j r hr => ?_⟩
  · simp [evtValid, evtStatus, evtData1, evtData2, he]
  · simp [evtValid, evtStatus, evtData1, evtData2, he]
  · simp [voiceNote, voiceActive, voiceAmp, poolRead_of_getElem? hr]

end Sys2Proof.Machine
end

section
/-! The stores of the core and who touches them (20_memory.md): the feeder's operations and the TICK share only the pool (R60, R72), a table read is inside the table (R61), and a frame is a list of little-endian samples (R64). -/

namespace Sys2Proof.Machine

/-! ## The feeder's side -/

theorem emit_byteFrame (ev : Option ChannelMessage) (s : State) : ByteFrame s (emit ev s) :=
  ⟨rfl, rfl, rfl, rfl, rfl, rfl⟩

theorem latchStatus_byteFrame (b : Byte) (d : DState) (s : State) : ByteFrame s (latchStatus b d s) :=
  ⟨rfl, rfl, rfl, rfl, rfl, rfl⟩

theorem alloc_byteFrame (m : ChannelMessage) (s : State) : ByteFrame s (alloc m s) :=
  ⟨alloc_cfg m s, alloc_phase m s, alloc_frame m s, alloc_mixSum m s, alloc_mono m s, alloc_inputs m s⟩

/-- Every operation but TICK and RESET has the frame of a BYTE. -/
theorem exec_byteFrame {i : Instr} (s : State) (htick : i ≠ .tick) (hreset : i ≠ .reset) :
    ∃ t, exec i s = .next t ∧ ByteFrame s t := by
  cases i with
  | data v => exact ⟨_, rfl, dataByte_frame v s⟩
  | byte b =>
    obtain ⟨t, ht⟩ := execByte_next b s
    exact ⟨t, ht, execByte_frame ht⟩
  | noteOnGeneral | noteOffGeneral9nV0 | noteOffGeneral8n | ignoreGeneralAnBn | ignoreGeneralEn
  | noteOnReference | noteOffReference => exact ⟨_, rfl, alloc_byteFrame _ s⟩
  | stNoteOff | stNoteOn | stPolyPressure | stControlChange | stProgramChange | stChannelPressure
  | stPitchBend | sysExStart | sysF1 | sysF2 | sysF3 | sysF4 | sysF5 | sysF6 | sysExEnd =>
    exact ⟨_, rfl, latchStatus_byteFrame _ _ s⟩
  | realtime => exact ⟨_, rfl, emit_byteFrame none s⟩
  | tick => exact absurd rfl htick
  | reset => exact absurd rfl hreset

/-! ## The TICK's side -/

theorem tickState_sameDecoder (s : State) : SameDecoder (tickState s) s :=
  ⟨rfl, rfl, rfl, rfl, rfl, rfl⟩

/-- A TICK reads the parameters, the phase and the pool, so across two states that agree on these, and on
what is presented, it answers the same samples and phase (R180). -/
theorem tickState_byteFrame {s u : State} (hframe : ByteFrame s u) (hpool : u.pool = s.pool) :
    ByteFrame (tickState s) (tickState u) := by
  constructor <;> simp [hframe.cfg, hframe.phase, hframe.inputs, hpool]

/-- `SameDecoder`, the event port and `ByteFrame` together cover the whole state: what is kept from one
state and agrees in the rest is equal. -/
theorem eq_of_sameDecoder_of_byteFrame {s t u : State} (hdec : SameDecoder t u) (hevt : t.evt = u.evt)
    (ht : ByteFrame s t) (hu : ByteFrame s u) : t = u := by
  obtain ⟨hcfg, hdstate, hstatus, hdata1, hdata2, hpool⟩ := hdec
  have hphase := ht.phase.trans hu.phase.symm
  have hframe := ht.frame.trans hu.frame.symm
  have hmixSum := ht.mixSum.trans hu.mixSum.symm
  have hmono := ht.mono.trans hu.mono.symm
  have hinputs := ht.inputs.trans hu.inputs.symm
  cases t
  cases u
  rw [State.mk.injEq]
  exact ⟨hcfg, hdstate, hstatus, hdata1, hdata2, hpool, hphase, hevt, hframe, hmixSum, hmono, hinputs⟩

/-! ## The bytes of a frame -/

@[simp] theorem frameBytes_cons (x : Sample) (frame : List Sample) :
    frameBytes (x :: frame) = x.extractLsb' 0 8 :: x.extractLsb' 8 8 :: frameBytes frame := rfl

theorem frameBytes_length (frame : List Sample) : (frameBytes frame).length = 2 * frame.length := by
  induction frame with
  | nil => rfl
  | cons x frame ih =>
    simp only [frameBytes_cons, List.length_cons, ih]
    omega

theorem frameBytes_getElem? {frame : List Sample} {j : Nat} {x : Sample} (hx : frame[j]? = some x) :
    (frameBytes frame)[2 * j]? = some (x.extractLsb' 0 8) ∧
    (frameBytes frame)[2 * j + 1]? = some (x.extractLsb' 8 8) := by
  induction frame generalizing j with
  | nil => simp at hx
  | cons y frame ih =>
    cases j with
    | zero =>
      obtain rfl : y = x := by simpa using hx
      exact ⟨rfl, rfl⟩
    | succ j => exact ih (by simpa using hx)

/-! ## The settled statements -/

/-- Settles O48: the TICK is invisible to the BYTE's decoder and pool, and with the pool kept the BYTE is
invisible to the TICK's samples and phase; the two orders agree on all of the state. -/
theorem tickAndByteCommute : Obligations.TickAndByteCommute := by
  intro s b
  obtain ⟨u, hu⟩ := execByte_next b s
  obtain ⟨w, hw⟩ := execByte_next b (tickState s)
  refine ⟨u, hu, fun hpool => ⟨tickState s, w, rfl, hw, congrArg Host.Outcome.next ?_⟩⟩
  obtain ⟨hdec, hevt⟩ := execByte_congr b (tickState_sameDecoder s) hw hu
  have hdec' : SameDecoder w (tickState u) := { hdec with }
  exact (eq_of_sameDecoder_of_byteFrame hdec' hevt (execByte_frame hw)
    (tickState_byteFrame (execByte_frame hu) hpool)).symm

/-- Settles O49: the frame of each operation but TICK and RESET, and that of TICK. -/
theorem feederAndConsumerShareOnlyThePool : Obligations.FeederAndConsumerShareOnlyThePool := by
  refine ⟨fun i s htick hreset => ?_, fun s => ?_⟩
  · obtain ⟨t, ht, hframe⟩ := exec_byteFrame s htick hreset
    exact ⟨t, ht, hframe.phase, hframe.frame, hframe.mixSum, hframe.mono, hframe.inputs⟩
  · obtain ⟨-, hdstate, hstatus, hdata1, hdata2, hpool⟩ := tickState_sameDecoder s
    exact ⟨tickState s, rfl, hdstate, hstatus, hdata1, hdata2, hpool⟩

/-- Settles O52, by induction on the frame. -/
theorem frameBytesAreLittleEndian : Obligations.FrameBytesAreLittleEndian :=
  fun frame => ⟨frameBytes_length frame, fun _ _ => frameBytes_getElem?⟩

/-- Settles O50: legal parameters hold a table of 128 entries, the first 12 of them 0. -/
theorem tableReadsAreInRange : Obligations.TableReadsAreInRange :=
  fun cfg n => ⟨freq_eq_getElem? cfg n, freq_eq_zero_of_lt cfg⟩

end Sys2Proof.Machine
end

section
/-! The decoder and the encoder are inverse to each other (30_encoding.md R81 to R83, R87), and every byte has one row in the byte-class table (R81). -/

namespace Sys2Proof.Machine

/-! ## From operations to words and back -/

/-- Settles O11: one round trip per row. -/
theorem decodeOfEncode : Obligations.DecodeOfEncode := by
  intro i
  change Laws.RoundTrip.Statement i
  cases i with
  | data v => exact Laws.RoundTrip.data v
  | stNoteOff c => exact Laws.RoundTrip.stNoteOff c
  | stNoteOn c => exact Laws.RoundTrip.stNoteOn c
  | stPolyPressure c => exact Laws.RoundTrip.stPolyPressure c
  | stControlChange c => exact Laws.RoundTrip.stControlChange c
  | stProgramChange c => exact Laws.RoundTrip.stProgramChange c
  | stChannelPressure c => exact Laws.RoundTrip.stChannelPressure c
  | stPitchBend c => exact Laws.RoundTrip.stPitchBend c
  | sysExStart => exact Laws.RoundTrip.sysExStart
  | sysF1 => exact Laws.RoundTrip.sysF1
  | sysF2 => exact Laws.RoundTrip.sysF2
  | sysF3 => exact Laws.RoundTrip.sysF3
  | sysF4 => exact Laws.RoundTrip.sysF4
  | sysF5 => exact Laws.RoundTrip.sysF5
  | sysF6 => exact Laws.RoundTrip.sysF6
  | sysExEnd => exact Laws.RoundTrip.sysExEnd
  | realtime r => exact Laws.RoundTrip.realtime r
  | noteOnGeneral c n v => exact Laws.RoundTrip.noteOnGeneral c n v
  | noteOffGeneral9nV0 c n => exact Laws.RoundTrip.noteOffGeneral9nV0 c n
  | noteOffGeneral8n c n v => exact Laws.RoundTrip.noteOffGeneral8n c n v
  | ignoreGeneralAnBn k n v => exact Laws.RoundTrip.ignoreGeneralAnBn k n v
  | ignoreGeneralEn c n v => exact Laws.RoundTrip.ignoreGeneralEn c n v
  | noteOnReference n v => exact Laws.RoundTrip.noteOnReference n v
  | noteOffReference k n v => exact Laws.RoundTrip.noteOffReference k n v
  | tick => exact Laws.RoundTrip.tick
  | reset => exact Laws.RoundTrip.reset
  | byte b => exact Laws.RoundTrip.byte b

/-! ## From bytes to operations and back -/

/-- A data byte is its value under a top bit 0 (R83). -/
theorem append_dataValue {b : Byte} (hb : b.toNat ≤ 0x7F) : 0#1 ++ dataValue b = b := by
  have h : ∀ b : Byte, b.toNat ≤ 0x7F → 0#1 ++ dataValue b = b := by decide +kernel
  exact h b hb

/-- A real-time byte is its selector under five bits 1 (R81). -/
theorem append_realtimeSelector {b : Byte} (hb : 0xF8 ≤ b.toNat) :
    0x1F#5 ++ realtimeSelector b = b := by
  have h : ∀ b : Byte, 0xF8 ≤ b.toNat → 0x1F#5 ++ realtimeSelector b = b := by decide +kernel
  exact h b hb

/-- The operation of a byte is encoded as that byte: its class fixes the bits its operands leave out. -/
theorem encode_decodeByte (b : Byte) : encode (decodeByte b) = .byte8 b := by
  have hclass := byteOfClass_classifyByte b
  unfold decodeByte
  generalize classifyByte b = k at hclass
  cases k with
  | data => exact congrArg Code.byte8 (append_dataValue (of_decide_eq_true hclass))
  | realtime => exact congrArg Code.byte8 (append_realtimeSelector (of_decide_eq_true hclass))
  | stNoteOff | stNoteOn | stPolyPressure | stControlChange | stProgramChange | stChannelPressure
  | stPitchBend | sysExStart | sysF1 | sysF2 | sysF3 | sysF4 | sysF5 | sysF6 | sysExEnd =>
    exact congrArg Code.byte8 (of_decide_eq_true hclass).symm

/-! ## From event words to operations and back -/

/-- A clear bit as a field of width 1. -/
theorem extractLsb'_one_of_getLsbD {k : Nat} {w : BitVec k} {j : Nat} (hj : w.getLsbD j = false) :
    w.extractLsb' j 1 = 0#1 := by
  ext i hi
  obtain rfl : i = 0 := by omega
  simpa using hj

/-- An event word whose bits 15 and 7 are clear is the word of its message. -/
theorem eventWord_messageOfWord {w : BitVec 24} (h15 : w.getLsbD 15 = false)
    (h7 : w.getLsbD 7 = false) : eventWord (messageOfWord w) = w := by
  calc eventWord (messageOfWord w)
      = w.extractLsb' 16 8 ++ w.extractLsb' 15 1 ++ w.extractLsb' 8 7 ++ w.extractLsb' 7 1 ++
          w.extractLsb' 0 7 := by
        rw [extractLsb'_one_of_getLsbD h15, extractLsb'_one_of_getLsbD h7]
        rfl
    _ = w := by
        rw [BitVec.extractLsb'_append_extractLsb'_eq_extractLsb' (show 16 = 15 + 1 from rfl),
          BitVec.extractLsb'_append_extractLsb'_eq_extractLsb' (show 15 = 8 + 7 from rfl),
          BitVec.extractLsb'_append_extractLsb'_eq_extractLsb' (show 8 = 7 + 1 from rfl),
          BitVec.extractLsb'_append_extractLsb'_eq_extractLsb' (show 7 = 0 + 7 from rfl)]
        exact BitVec.extractLsb'_eq_self

/-- What an accepted event word is, and where its operation comes from. -/
theorem decode_event24_eq_ok {mode : NoteOnMode} {w : BitVec 24} {i : Instr}
    (h : decode mode (.event24 w) = .ok i) :
    eventWord (messageOfWord w) = w ∧ decodeEvent mode (messageOfWord w) = .ok i := by
  rw [decode] at h
  split at h
  · cases h
  · next hbits =>
    simp only [Bool.or_eq_true, not_or, Bool.not_eq_true] at hbits
    obtain ⟨h15, h7⟩ := hbits
    exact ⟨eventWord_messageOfWord h15 h7, h⟩

/-- A word is its high bits and its low bits. -/
theorem append_lowBits {high low : Nat} (x : BitVec (high + low)) :
    x.extractLsb' low high ++ x.extractLsb' 0 low = x :=
  (BitVec.extractLsb'_append_extractLsb'_eq_extractLsb' (Nat.zero_add low).symm).trans
    BitVec.extractLsb'_eq_self

/-- A status is its high nibble and its channel (R82). -/
theorem append_channelOf {st : Byte} {t : BitVec 4} (ht : st.extractLsb' 4 4 = t) :
    t ++ channelOf st = st := by
  subst ht
  exact append_lowBits (high := 4) (low := 4) st

/-- A status is its top three bits and its low five. -/
theorem append_lowFive {st : Byte} {t : BitVec 3} (ht : st.extractLsb' 5 3 = t) :
    t ++ st.extractLsb' 0 5 = st := by
  subst ht
  exact append_lowBits (high := 3) (low := 5) st

/-- The two-parameter channel statuses outside 0x80 to 0xBF are 0xE0 to 0xEF (R84). -/
theorem highNibble_eq_E : ∀ st : Byte, isTwoParamStatus st = true → st.extractLsb' 4 4 ≠ 9 →
    st.extractLsb' 4 4 ≠ 8 → st.extractLsb' 5 3 ≠ 5 → st.extractLsb' 4 4 = 0xE := by
  decide +kernel

/-- A two-parameter channel status is its low seven bits under a top bit 1 (R84). -/
theorem append_lowSeven : ∀ st : Byte, isTwoParamStatus st = true →
    1#1 ++ st.extractLsb' 0 7 = st := by
  decide +kernel

/-- An operation that is a row of the message under the mode: encoded as the message's event word,
well-formed, and of that mode. -/
structure RowOfMessage (mode : NoteOnMode) (m : ChannelMessage) (i : Instr) : Prop where
  encode : encode i = .event24 (eventWord m)
  wf     : i.wf = true
  mode   : i.mode = some mode

/-- The event word in a row, from the status its operands give back. -/
theorem event24_of_status {st' st : Byte} (h : st' = st) (n v : Data7) :
    Code.event24 (eventWord ⟨st', n, v⟩) = .event24 (eventWord ⟨st, n, v⟩) := by rw [h]

/-- R141: what the event decoder answers in GENERAL mode, by the high nibble of the status. -/
theorem rowOfMessage_general {m : ChannelMessage} {i : Instr}
    (h : decodeEvent .general m = .ok i) : RowOfMessage .general m i := by
  obtain ⟨st, n, v⟩ := m
  simp only [decodeEvent] at h
  split at h
  case isFalse => cases h
  case isTrue htwo =>
  split at h
  case isTrue h9 =>
    have hword := event24_of_status (append_channelOf h9) n v
    split at h <;> cases h
    case isTrue hv =>
      subst hv
      exact ⟨hword, rfl, rfl⟩
    case isFalse hv => exact ⟨hword, bne_iff_ne.mpr hv, rfl⟩
  case isFalse h9 =>
  split at h
  case isTrue h8 =>
    cases h
    exact ⟨event24_of_status (append_channelOf h8) n v, rfl, rfl⟩
  case isFalse h8 =>
  split at h <;> cases h
  case isTrue h5 => exact ⟨event24_of_status (append_lowFive h5) n v, rfl, rfl⟩
  case isFalse h5 =>
    have hE := highNibble_eq_E st htwo h9 h8 h5
    exact ⟨event24_of_status (append_channelOf hE) n v, rfl, rfl⟩

/-- R142: what the event decoder answers in REFERENCE mode: 0x9B against every other status. -/
theorem rowOfMessage_reference {m : ChannelMessage} {i : Instr}
    (h : decodeEvent .reference m = .ok i) : RowOfMessage .reference m i := by
  obtain ⟨st, n, v⟩ := m
  simp only [decodeEvent] at h
  split at h
  case isFalse => cases h
  case isTrue htwo =>
  split at h <;> cases h
  case isTrue hon => exact ⟨event24_of_status hon.symm n v, rfl, rfl⟩
  case isFalse hoff =>
    have hst := append_lowSeven st htwo
    have hwf : (Instr.noteOffReference (st.extractLsb' 0 7) n v).wf = true := by
      rw [Instr.wf, hst, htwo, bne_iff_ne.mpr hoff]
      rfl
    exact ⟨event24_of_status hst n v, hwf, rfl⟩

theorem rowOfMessage_of_decodeEvent {mode : NoteOnMode} {m : ChannelMessage} {i : Instr}
    (h : decodeEvent mode m = .ok i) : RowOfMessage mode m i := by
  cases mode with
  | general => exact rowOfMessage_general h
  | reference => exact rowOfMessage_reference h

/-- Settles O12: each byte by its class, each accepted event word by its row. -/
theorem encodeOfDecode : Obligations.EncodeOfDecode := by
  refine ⟨fun mode b => ⟨decodeByte b, rfl, encode_decodeByte b⟩, fun mode w i h => ?_⟩
  obtain ⟨hw, hrow⟩ := decode_event24_eq_ok h
  obtain ⟨hencode, hwf, hmode⟩ := rowOfMessage_of_decodeEvent hrow
  exact ⟨hencode.trans (congrArg Code.event24 hw), hwf, hmode⟩

/-! ## The byte-class table -/

/-- R81: the rows are disjoint and cover all bytes. -/
theorem length_filter_byteRows : ∀ b : Byte, (byteRows.filter (fun r => r.holds b)).length = 1 := by
  decide +kernel

/-- A byte with one row has that row's class. -/
theorem classifyByte_of_filter_eq {b : Byte} {row : ByteRow}
    (h : byteRows.filter (fun r => r.holds b) = [row]) : classifyByte b = row.cls := by
  rw [classifyByte, ← List.head?_filter, h]
  rfl

/-- Settles O10: the one row the table has for a byte is the one the decoder finds. -/
theorem byteClassesPartitionTheBytes : Obligations.ByteClassesPartitionTheBytes := by
  intro b
  obtain ⟨row, hrow⟩ := List.length_eq_one_iff.mp (length_filter_byteRows b)
  exact ⟨row, hrow, classifyByte_of_filter_eq hrow⟩

/-- Settles O13: each word is evaluated. -/
theorem writtenOutWordsDecode : Obligations.WrittenOutWordsDecode := by
  unfold Obligations.WrittenOutWordsDecode
  decide

end Sys2Proof.Machine
end

section
/-! Sequences of bytes (40_decoder.md R100), and the real-time bytes in them (30_encoding.md R86). -/

namespace Sys2Proof.Machine

/-! ## Feeding one byte after the other -/

theorem feed_cons {b : Byte} {s t : State} (h : exec (.byte b) s = .next t) (rest : List Byte) :
    feed (b :: rest) s = (t.evt.toList ++ (feed rest t).1, (feed rest t).2) := by
  rw [feed, h]

/-- A BYTE does not read the event port. -/
theorem exec_byte_emit (b : Byte) (ev : Option ChannelMessage) (s : State) :
    exec (.byte b) (emit ev s) = exec (.byte b) s := by
  obtain ⟨t, ht⟩ := execByte_next b (emit ev s)
  obtain ⟨u, hu⟩ := execByte_next b s
  have hsame : SameDecoder (emit ev s) s := ⟨rfl, rfl, rfl, rfl, rfl, rfl⟩
  obtain ⟨hdec, hevt⟩ := execByte_congr b hsame ht hu
  have hframe : ByteFrame s t := { execByte_frame ht with }
  have htu : t = u := eq_of_sameDecoder_of_byteFrame hdec hevt hframe (execByte_frame hu)
  exact (ht.trans (congrArg _ htu)).trans hu.symm

/-- What a sequence of bytes does, but for the event port it leaves: that shows the last step only. -/
def feedQuietly (bytes : List Byte) (s : State) : List ChannelMessage × State :=
  ((feed bytes s).1, emit none (feed bytes s).2)

theorem feedQuietly_cons {b : Byte} {s t : State} (h : exec (.byte b) s = .next t) (rest : List Byte) :
    feedQuietly (b :: rest) s = (t.evt.toList ++ (feedQuietly rest t).1, (feedQuietly rest t).2) := by
  simp only [feedQuietly, feed_cons h]

/-- The event port a sequence of bytes begins with is of no consequence. -/
theorem feedQuietly_emit (bytes : List Byte) (ev : Option ChannelMessage) (s : State) :
    feedQuietly bytes (emit ev s) = feedQuietly bytes s := by
  cases bytes with
  | nil => rfl
  | cons b rest =>
    obtain ⟨t, ht⟩ := execByte_next b s
    rw [feedQuietly_cons ht, feedQuietly_cons ((exec_byte_emit b ev s).trans ht)]

/-! ## Real-time bytes -/

theorem classifyByte_realtime : ∀ b : Byte, 0xF8 ≤ b.toNat → classifyByte b = .realtime := by
  decide +kernel

/-- R101: a real-time byte only ends the event output. -/
theorem exec_byte_realtime {b : Byte} (hb : 0xF8 ≤ b.toNat) (s : State) :
    exec (.byte b) s = .next (emit none s) := by
  change execByte b s = _
  rw [execByte_eq, classifyByte_realtime b hb]
  rfl

/-- R86 for a real-time byte at the beginning. -/
theorem feedQuietly_cons_realtime {b : Byte} (hb : 0xF8 ≤ b.toNat) (rest : List Byte) (s : State) :
    feedQuietly (b :: rest) s = feedQuietly rest s := by
  rw [feedQuietly_cons (exec_byte_realtime hb s), feedQuietly_emit]
  rfl

/-- R86, on events and last state together. -/
theorem feedQuietly_filter (bytes : List Byte) (s : State) :
    feedQuietly (bytes.filter (fun b => decide (b.toNat < 0xF8))) s = feedQuietly bytes s := by
  induction bytes generalizing s with
  | nil => rfl
  | cons b rest ih =>
    by_cases hb : b.toNat < 0xF8
    · obtain ⟨t, ht⟩ := execByte_next b s
      rw [List.filter_cons_of_pos (by simpa using hb), feedQuietly_cons ht, feedQuietly_cons ht, ih]
    · rw [List.filter_cons_of_neg (by simpa using hb), feedQuietly_cons_realtime (by omega), ih]

/-- Settles O24, by induction on the bytes: what a real-time byte leaves differs in the event port only,
which no later BYTE reads. -/
theorem realtimeInterleavingChangesNothing : Obligations.RealtimeInterleavingChangesNothing :=
  fun bytes s => Prod.mk.inj (feedQuietly_filter bytes s).symm

end Sys2Proof.Machine
end

section
/-! The BYTE step by the class of its byte (40_decoder.md R100 to R124): a status byte latches, a data byte does what the decoder state says, a real-time byte only ends the event output; and from these the transition table (R125). -/

namespace Sys2Proof.Machine

/-! ## The three kinds of bytes -/

theorem classifyByte_data : ∀ b : Byte, b.toNat < 0x80 → classifyByte b = .data := by
  decide +kernel

/-- R117: a byte below 0x80 is the data byte of its value. -/
theorem exec_byte_data {b : Byte} (hb : b.toNat < 0x80) (s : State) :
    exec (.byte b) s = .next (dataByte (dataValue b) s) := by
  rw [exec_byte_eq_exec_decodeByte, decodeByte, classifyByte_data b hb]
  rfl

/-- A BYTE of the word of a `byte8` row is that row (R100). -/
theorem exec_byte_of_encode_eq {i : Instr} {b : Byte} (hi : encode i = .byte8 b) (hwf : i.wf = true)
    (hmode : i.mode = none) (s : State) : exec (.byte b) s = exec i s := by
  have hdecode : decode .general (encode i) = .ok i := decodeOfEncode i .general hwf (.inl hmode)
  rw [hi] at hdecode
  rw [exec_byte_eq_exec_decodeByte, Except.ok.inj hdecode]

theorem exec_byte_append_data (v : Data7) (s : State) :
    exec (.byte (0#1 ++ v)) s = .next (dataByte v s) :=
  exec_byte_of_encode_eq (i := .data v) rfl rfl rfl s

/-- A status byte latches itself, from every state (R102 to R116). -/
theorem exec_byte_of_statusTarget {b : Byte} {d : DState} (hd : statusTarget (classifyByte b) = some d)
    (s : State) : exec (.byte b) s = .next (latchStatus b d s) := by
  change execByte b s = _
  rw [execByte_eq, hd]

/-- Under a status byte the table's cells are those of R102 to R116, whatever the row. -/
theorem statusTarget_eq_tableNext (d : DState) : ∀ b : Byte, 0x80 ≤ b.toNat → b.toNat ≤ 0xF7 →
    statusTarget (classifyByte b) = some (tableNext d b) := by
  cases d <;> decide +kernel

/-- The row `d` of the table need not be that of `s`: this is what makes a status byte resynchronise
the decoder (R128). -/
theorem exec_byte_status {b : Byte} (hlo : 0x80 ≤ b.toNat) (hhi : b.toNat ≤ 0xF7) (d : DState)
    (s : State) : exec (.byte b) s = .next (latchStatus b (tableNext d b) s) :=
  exec_byte_of_statusTarget (statusTarget_eq_tableNext d b hlo hhi) s

theorem tableNext_realtime (d : DState) : ∀ b : Byte, 0xF8 ≤ b.toNat → tableNext d b = d := by
  cases d <;> decide +kernel

/-! ## A data byte by decoder state -/

section
variable {s : State} (v : Data7)

/-- R118, R120, R124. -/
theorem dataByte_of_absorbing (hd : s.dstate = .idle ∨ s.dstate = .h1 ∨ s.dstate = .sysex) :
    dataByte v s = emit none s := by
  rcases hd with hd | hd | hd <;> rw [dataByte, hd]

/-- R119. -/
theorem dataByte_of_a1 (hd : s.dstate = .a1) : dataByte v s = emit none { s with dstate := .h1 } := by
  rw [dataByte, hd]

/-- R121, R123. -/
theorem dataByte_of_first (hd : s.dstate = .a2f ∨ s.dstate = .h2) : dataByte v s = storeData1 v s := by
  rcases hd with hd | hd <;> rw [dataByte, hd]

/-- R122. -/
theorem dataByte_of_a2s (hd : s.dstate = .a2s) : dataByte v s = completeMessage v s := by
  rw [dataByte, hd]

end

theorem isChannelStatus_iff {st : Byte} :
    isChannelStatus st = true ↔ 0x80 ≤ st.toNat ∧ st.toNat ≤ 0xEF := by
  simp [isChannelStatus]

theorem isChannelStatus_eq_false_iff {st : Byte} :
    isChannelStatus st = false ↔ ¬(0x80 ≤ st.toNat ∧ st.toNat ≤ 0xEF) := by
  rw [← isChannelStatus_iff, Bool.not_eq_true]

/-! ## The operations of the byte classes -/

/-- Settles O20: the synthesizer's phase is in the frame of a BYTE, and the BYTE's effect on the rest
does not depend on it. -/
theorem byteRunsItsClass : Obligations.ByteRunsItsClass := by
  intro s b
  obtain ⟨t, ht⟩ := execByte_next b s
  refine ⟨exec_byte_eq_exec_decodeByte b s, t, ht, (execByte_frame ht).phase, fun q => ?_⟩
  obtain ⟨u, hu⟩ := execByte_next b { s with phase := q }
  have hsame : SameDecoder { s with phase := q } s := ⟨rfl, rfl, rfl, rfl, rfl, rfl⟩
  obtain ⟨hdec, hevt⟩ := execByte_congr b hsame hu ht
  have hdec' : SameDecoder u { t with phase := q } := { hdec with }
  have hframe : ByteFrame { s with phase := q } { t with phase := q } :=
    { execByte_frame ht with phase := rfl }
  have hut := eq_of_sameDecoder_of_byteFrame hdec' hevt (execByte_frame hu) hframe
  exact hu.trans (congrArg Host.Outcome.next hut)

/-- Settles O14: the BYTE of a real-time byte is the real-time row, which only ends the event output. -/
theorem realtimeBytesHaveNoEffect : Obligations.RealtimeBytesHaveNoEffect :=
  fun s r => ⟨rfl, exec_byte_of_encode_eq (i := .realtime r) rfl rfl rfl s⟩

/-- Settles O15: each row is a latch of its own byte. -/
theorem systemStatusBytesLatch : Obligations.SystemStatusBytesLatch :=
  fun _ => ⟨rfl, rfl, rfl, rfl, rfl, rfl, rfl⟩

/-- Settles O17: each row is a latch of the byte of its high nibble and its channel. -/
theorem channelStatusBytesLatch : Obligations.ChannelStatusBytesLatch :=
  fun _ _ => ⟨rfl, rfl, rfl, rfl, rfl, rfl, rfl⟩

/-- Settles O18, by the decoder state. -/
theorem dataBytesByState : Obligations.DataBytesByState := by
  intro s v
  exact ⟨fun hd => congrArg Host.Outcome.next (dataByte_of_absorbing v (.inl hd)),
    fun hd => congrArg Host.Outcome.next (dataByte_of_a1 v hd),
    fun hd => congrArg Host.Outcome.next (dataByte_of_absorbing v (.inr (.inl hd))),
    fun hd => congrArg Host.Outcome.next (dataByte_of_first v (.inl hd)),
    fun hd => congrArg Host.Outcome.next (dataByte_of_first v (.inr hd)),
    fun hd => congrArg Host.Outcome.next (dataByte_of_absorbing v (.inr (.inr hd)))⟩

/-- Settles O19, by whether STATUS is a channel status; which ones go with A2S is in the invariant. -/
theorem secondDataByteCompletesTheMessage : Obligations.SecondDataByteCompletesTheMessage := by
  intro s v hd
  have hexec : exec (.data v) s = .next (completeMessage v s) :=
    congrArg Host.Outcome.next (dataByte_of_a2s v hd)
  refine ⟨fun hc => ?_, fun hc => ?_, fun hinv => ?_⟩
  · rw [hexec, completeMessage_channel v (isChannelStatus_iff.mpr hc)]
  · rw [hexec, completeMessage_other v (isChannelStatus_eq_false_iff.mpr hc)]
  · have hfits := hinv.statusState
    rw [hd] at hfits
    simpa [statusFits] using hfits

/-- Settles O16: the three states in a row, the last under a status that is no channel status. -/
theorem songPositionEmitsNothing : Obligations.SongPositionEmitsNothing := by
  intro s v w
  refine ⟨rfl, ?_⟩
  rintro t ⟨⟩
  refine ⟨rfl, ?_⟩
  rintro u ⟨⟩
  have hother : isChannelStatus 0xF2 = false := by decide
  exact congrArg Host.Outcome.next
    (completeMessage_other (s := storeData1 v (latchStatus 0xF2 .a2f s)) w hother)

/-! ## The transition table -/

/-- The cells of R125 for the state `s` and the byte `b`, of a next state `t`. -/
structure FollowsTable (s : State) (b : Byte) (t : State) : Prop where
  dstate : t.dstate = tableNext s.dstate b
  status : t.status = if 0x80 ≤ b.toNat ∧ b.toNat ≤ 0xF7 then b else s.status
  data1  : t.data1 =
    if b.toNat < 0x80 ∧ (s.dstate = .a2f ∨ s.dstate = .h2) then dataValue b else s.data1
  data2  : t.data2 = if b.toNat < 0x80 ∧ s.dstate = .a2s then dataValue b else s.data2
  evt    : t.evt = tableEvent s b

/-- The column of a data byte: only here do DATA1, DATA2 and the event port have cells. -/
theorem dataByte_followsTable {b : Byte} (hb : b.toNat < 0x80) (s : State) :
    FollowsTable s b (dataByte (dataValue b) s) := by
  have hstatus : ¬(0x80 ≤ b.toNat ∧ b.toNat ≤ 0xF7) := by omega
  cases hd : s.dstate with
  | idle | h1 | sysex =>
    rw [dataByte_of_absorbing _ (by simp [hd])]
    constructor <;> simp [tableNext, tableEvent, hb, hstatus, hd]
  | a1 =>
    rw [dataByte_of_a1 _ hd]
    constructor <;> simp [tableNext, tableEvent, hb, hstatus, hd]
  | a2f | h2 =>
    rw [dataByte_of_first _ (by simp [hd])]
    constructor <;> simp [tableNext, tableEvent, hb, hstatus, hd]
  | a2s =>
    rw [dataByte_of_a2s _ hd]
    cases hc : isChannelStatus s.status with
    | true =>
      rw [completeMessage_channel _ hc]
      have hrange := isChannelStatus_iff.mp hc
      constructor <;> simp [tableNext, tableEvent, hb, hstatus, hd, hrange, dataValue]
    | false =>
      rw [completeMessage_other _ hc]
      have hrange := isChannelStatus_eq_false_iff.mp hc
      constructor <;> simp [tableNext, tableEvent, hb, hstatus, hd, hrange]

theorem latchStatus_followsTable {b : Byte} (hlo : 0x80 ≤ b.toNat) (hhi : b.toNat ≤ 0xF7) (s : State) :
    FollowsTable s b (latchStatus b (tableNext s.dstate b) s) := by
  have hdata : ¬b.toNat < 0x80 := by omega
  constructor <;> simp [tableEvent, hlo, hhi, hdata]

theorem emit_none_followsTable {b : Byte} (hb : 0xF8 ≤ b.toNat) (s : State) :
    FollowsTable s b (emit none s) := by
  have hdata : ¬b.toNat < 0x80 := by omega
  have hstatus : ¬(0x80 ≤ b.toNat ∧ b.toNat ≤ 0xF7) := by omega
  constructor <;> simp [tableNext_realtime, tableEvent, hb, hdata, hstatus]

/-- R125, by the kind of the byte. -/
theorem exec_byte_followsTable (s : State) (b : Byte) :
    ∃ t, exec (.byte b) s = .next t ∧ FollowsTable s b t := by
  rcases Nat.lt_or_ge b.toNat 0x80 with hdata | hlo
  · exact ⟨_, exec_byte_data hdata s, dataByte_followsTable hdata s⟩
  rcases Nat.lt_or_ge b.toNat 0xF8 with hhi | hrealtime
  · exact ⟨_, exec_byte_status hlo (by omega) s.dstate s, latchStatus_followsTable hlo (by omega) s⟩
  · exact ⟨_, exec_byte_realtime hrealtime s, emit_none_followsTable hrealtime s⟩

/-- Settles O21: the cells of the table. -/
theorem decoderTransitionTable : Obligations.DecoderTransitionTable := by
  intro s b
  obtain ⟨t, ht, hdstate, hstatus, hdata1, hdata2, hevt⟩ := exec_byte_followsTable s b
  exact ⟨t, ht, hdstate, hstatus, hdata1, hdata2, hevt⟩

/-- Settles O22: one row of the table serves both states. -/
theorem statusByteResynchronises : Obligations.StatusByteResynchronises :=
  fun s1 s2 _ hlo hhi =>
    ⟨_, _, exec_byte_status hlo hhi .idle s1, exec_byte_status hlo hhi .idle s2, rfl, rfl⟩

end Sys2Proof.Machine
end

section
/-! Messages as sequences of bytes (40_decoder.md): one event per pair of data bytes under running status (R129), and none under a one-parameter status (R119, R120). -/

namespace Sys2Proof.Machine

theorem feed_data (v : Data7) (rest : List Byte) (s : State) :
    feed ((0#1 ++ v) :: rest) s =
      ((dataByte v s).evt.toList ++ (feed rest (dataByte v s)).1, (feed rest (dataByte v s)).2) :=
  feed_cons (exec_byte_append_data v s) rest

/-- A status byte emits nothing. -/
theorem feed_status {b : Byte} {d : DState} (hd : statusTarget (classifyByte b) = some d)
    (rest : List Byte) (s : State) : feed (b :: rest) s = feed rest (latchStatus b d s) :=
  feed_cons (exec_byte_of_statusTarget hd s) rest

/-! ## Running status -/

theorem statusTarget_twoParam : ∀ st : Byte, isTwoParamStatus st = true →
    statusTarget (classifyByte st) = some .a2f := by
  decide +kernel

theorem isChannelStatus_of_isTwoParamStatus : ∀ st : Byte, isTwoParamStatus st = true →
    isChannelStatus st = true := by
  decide +kernel

/-- The decoder expects the first data byte of a message under the status `st`: it has just taken the
status, or a whole message under it (R121, R123). -/
structure AwaitsFirst (st : Byte) (s : State) : Prop where
  status : s.status = st
  dstate : s.dstate = .a2f ∨ s.dstate = .h2

theorem awaitsFirst_latchStatus (st : Byte) (s : State) : AwaitsFirst st (latchStatus st .a2f s) :=
  ⟨rfl, .inl rfl⟩

/-- A sequence of pairs of data bytes. -/
def pairBytes (pairs : List (Data7 × Data7)) : List Byte :=
  pairs.flatMap (fun p => [0#1 ++ p.1, 0#1 ++ p.2])

section
variable {st : Byte} (hst : isChannelStatus st = true)
include hst

/-- R121 or R123, then R122: a pair is emitted, and the decoder awaits the next. -/
theorem feed_pair {s : State} (hs : AwaitsFirst st s) (d1 d2 : Data7) (rest : List Byte) :
    ∃ t, AwaitsFirst st t ∧ feed ((0#1 ++ d1) :: (0#1 ++ d2) :: rest) s =
      (⟨st, d1, d2⟩ :: (feed rest t).1, (feed rest t).2) := by
  obtain ⟨rfl, hd⟩ := hs
  have hchannel : isChannelStatus (storeData1 d1 s).status = true := hst
  refine ⟨completeMessage d2 (storeData1 d1 s), ?_, ?_⟩
  · rw [completeMessage_channel d2 hchannel]
    constructor <;> simp
  · rw [feed_data, dataByte_of_first d1 hd, feed_data, dataByte_of_a2s d2 rfl,
      completeMessage_channel d2 hchannel]
    simp

/-- R129 up to the odd byte, by induction on the pairs. -/
theorem feed_pairs (pairs : List (Data7 × Data7)) {s : State} (hs : AwaitsFirst st s)
    (rest : List Byte) :
    ∃ t, AwaitsFirst st t ∧ feed (pairBytes pairs ++ rest) s =
      (pairs.map (fun p => ⟨st, p.1, p.2⟩) ++ (feed rest t).1, (feed rest t).2) := by
  induction pairs generalizing s with
  | nil => exact ⟨s, hs, rfl⟩
  | cons p pairs ih =>
    obtain ⟨t, ht, hpair⟩ := feed_pair hst hs p.1 p.2 (pairBytes pairs ++ rest)
    obtain ⟨u, hu, hpairs⟩ := ih ht
    refine ⟨u, hu, ?_⟩
    rw [hpairs] at hpair
    exact hpair

end

/-- A first data byte alone waits in DATA1 (R121, R123). -/
theorem feed_first {st : Byte} {s : State} (hs : AwaitsFirst st s) (d : Data7) :
    feed [0#1 ++ d] s = ([], storeData1 d s) := by
  obtain ⟨-, hd⟩ := hs
  rw [feed_data, dataByte_of_first d hd]
  rfl

/-- Settles O23: the real-time bytes are of no consequence (R86), the status is latched from every state,
and each pair is emitted. -/
theorem oneEventPerCompletePair : Obligations.OneEventPerCompletePair := by
  intro st pairs odd bytes s hst _ hbytes
  obtain ⟨hevents, hlast⟩ := realtimeInterleavingChangesNothing bytes s
  obtain ⟨t, ht, hfeed⟩ := feed_pairs (isChannelStatus_of_isTwoParamStatus st hst) pairs
    (awaitsFirst_latchStatus st s) (odd.map (fun d => 0#1 ++ d)).toList
  have hquiet : bytes.filter (fun b => decide (b.toNat < 0xF8)) =
      st :: (pairBytes pairs ++ (odd.map (fun d => 0#1 ++ d)).toList) := hbytes
  rw [hquiet, feed_status (statusTarget_twoParam st hst), hfeed] at hevents hlast
  cases odd with
  | none => exact ⟨hevents.trans (List.append_nil _), nofun⟩
  | some d =>
    simp only [Option.map_some, Option.toList_some, feed_first ht d, List.append_nil] at hevents hlast
    refine ⟨hevents, ?_⟩
    rintro _ ⟨⟩
    exact ⟨congrArg State.dstate hlast, congrArg State.data1 hlast⟩

/-! ## One-parameter statuses -/

theorem statusTarget_oneParam : ∀ st : Byte, isOneParamStatus st = true →
    statusTarget (classifyByte st) = some .a1 := by
  decide +kernel

/-- R120: in H1 data bytes are absorbed. -/
theorem feed_data_of_h1 (ds : List Data7) {s : State} (hd : s.dstate = .h1) (he : s.evt = none) :
    feed (ds.map (fun v => 0#1 ++ v)) s = ([], s) := by
  induction ds with
  | nil => rfl
  | cons v ds ih =>
    have hkeep : dataByte v s = s := by
      rw [dataByte_of_absorbing v (.inr (.inl hd)), emit, ← he]
    rw [List.map_cons, feed_data, hkeep, ih, he]
    rfl

/-- Settles O25: the status leads to A1, the first data byte to H1, where the others are absorbed. -/
theorem oneParameterMessagesAreSilent : Obligations.OneParameterMessagesAreSilent := by
  intro st d ds s hst
  apply Prod.mk.inj
  rw [feed_status (statusTarget_oneParam st hst), List.map_cons, feed_data, dataByte_of_a1 d rfl,
    feed_data_of_h1 ds rfl rfl]
  rfl

end Sys2Proof.Machine
end

section
/-! The allocator (41_allocator.md): the two classification tables (R141, R142), what a note-on and a note-off do to the pool (R143, R144), that an event row is the allocator's half of a BYTE (R140), and that a BYTE writes at most the slot they select (R152). -/

namespace Sys2Proof.Machine

/-! ## Classification and amplitude -/

/-- A high nibble as a range of bytes (R82). -/
theorem highNibble_eq_iff (st : Byte) (t : BitVec 4) :
    st.extractLsb' 4 4 = t ↔ 16 * t.toNat ≤ st.toNat ∧ st.toNat ≤ 16 * t.toNat + 15 := by
  have ht := t.isLt
  have hst := st.isLt
  rw [← BitVec.toNat_inj, BitVec.extractLsb'_toNat, Nat.shiftRight_eq_div_pow]
  omega

theorem le_toNat_of_isTwoParamStatus {st : Byte} (h : isTwoParamStatus st = true) :
    0x80 ≤ st.toNat :=
  (isChannelStatus_iff.mp (isChannelStatus_of_isTwoParamStatus st h)).1

/-- Settles O26: the high nibbles as ranges, and 0x9B as a number. -/
theorem classificationTables : Obligations.ClassificationTables := by
  intro st d2 hst
  have hlo := le_toNat_of_isTwoParamStatus hst
  have hzero : d2 = 0 ↔ d2.toNat = 0 := BitVec.toNat_inj.symm
  have hon : st = refNoteOnStatus ↔ st.toNat = 0x9B := BitVec.toNat_inj.symm
  have h8 : st.extractLsb' 4 4 = 8 ↔ st.toNat ≤ 0x8F :=
    (highNibble_eq_iff st 8).trans (and_iff_right hlo)
  constructor
  · simp only [classify, classifyGeneral, highNibble_eq_iff st 9, h8, hzero]
    rfl
  · simp only [classify, classifyReference, hon]

/-- Settles O31: the product of a 7-bit velocity and 256 fits 16 bits, and is a shift by eight. -/
theorem amplitudeIsVelocityTimes256 : Obligations.AmplitudeIsVelocityTimes256 := by
  intro v
  have hamp := amplitude_toNat v
  have hv := v.isLt
  have hshift : ((v ++ 0#8).setWidth 16).toNat = 256 * v.toNat := by
    rw [BitVec.toNat_setWidth, BitVec.toNat_append, Nat.shiftLeft_eq]
    simp only [BitVec.toNat_ofNat, Nat.zero_mod, Nat.or_zero]
    omega
  exact ⟨by omega, by omega, BitVec.eq_of_toNat_eq (hamp.trans hshift.symm)⟩

/-! ## NOTE_ON and NOTE_OFF, one equation per case -/

theorem any_holdsNote_iff {n : Data7} {s : State} :
    s.pool.any (Slot.holdsNote n) = true ↔ sounds n s := by
  simp [sounds]

/-- The lowest slot with a property is the one the search finds. -/
theorem findIdx?_eq_some_of_lowest {p : Slot → Bool} {pool : List Slot} {k : Nat} {r : Slot}
    (hr : pool[k]? = some r) (hp : p r = true)
    (hlow : ∀ j q, j < k → pool[j]? = some q → p q = false) : pool.findIdx? p = some k := by
  obtain ⟨hk, rfl⟩ := List.getElem?_eq_some_iff.mp hr
  refine List.findIdx?_eq_some_iff_getElem.mpr ⟨hk, hp, fun j hj => ?_⟩
  simp [hlow j _ hj (List.getElem?_eq_getElem (hj.trans hk))]

section
variable {n : Data7} {s : State}

theorem noteOn_of_sounds (v : Data7) (h : sounds n s) : noteOn n v s = s :=
  if_pos (any_holdsNote_iff.mpr h)

theorem noteOn_of_findIdx? (v : Data7) (h : ¬sounds n s) {k : Nat}
    (hk : s.pool.findIdx? Slot.isFree = some k) :
    noteOn n v s = poolWrite k ⟨n, true, amplitude v⟩ s := by
  rw [noteOn, if_neg (mt any_holdsNote_iff.mp h), hk]

theorem noteOn_of_full (v : Data7) (h : s.pool.findIdx? Slot.isFree = none) : noteOn n v s = s := by
  rw [noteOn, h, ite_self]

theorem noteOff_of_findIdx? {k : Nat} (hk : s.pool.findIdx? (Slot.holdsNote n) = some k) :
    noteOff n s = poolWrite k Slot.free s := by
  rw [noteOff, hk]

theorem noteOff_of_absent (h : s.pool.findIdx? (Slot.holdsNote n) = none) : noteOff n s = s := by
  rw [noteOff, h]

end

theorem findIdx?_holdsNote_eq_none_iff {n : Data7} {s : State} :
    s.pool.findIdx? (Slot.holdsNote n) = none ↔ ¬sounds n s := by
  rw [List.findIdx?_eq_none_iff]
  simp [sounds, Slot.holdsNote]

theorem noteOff_of_lowest {n : Data7} {s : State} {k : Nat} {r : Slot} (hr : s.pool[k]? = some r)
    (hact : r.active = true) (hnote : r.note = n)
    (hlow : ∀ j q, j < k → s.pool[j]? = some q → q.active = true → q.note ≠ n) :
    noteOff n s = poolWrite k Slot.free s := by
  refine noteOff_of_findIdx? (findIdx?_eq_some_of_lowest hr ((holdsNote_iff n r).mpr ⟨hact, hnote⟩) ?_)
  intro j q hj hq
  simpa [Slot.holdsNote] using hlow j q hj hq

/-- A note-off undoes the write of a voice of its note over a free slot, since no other slot holds the
note. -/
theorem noteOff_poolWrite_voice {n : Data7} {s : State} (hs : ¬sounds n s) {k : Nat}
    (hk : s.pool[k]? = some Slot.free) (a : BitVec 16) :
    noteOff n (poolWrite k ⟨n, true, a⟩ s) = s := by
  obtain ⟨hlt, hget⟩ := List.getElem?_eq_some_iff.mp hk
  have hback : (s.pool.set k ⟨n, true, a⟩).set k Slot.free = s.pool := by
    rw [List.set_set, ← hget, List.set_getElem_self]
  rw [noteOff_of_lowest (r := ⟨n, true, a⟩) (List.getElem?_set_self hlt) rfl rfl]
  · exact congrArg (fun pool => { s with pool := pool }) hback
  · intro j q hj hq hact hnote
    rw [poolWrite_pool, List.getElem?_set_ne hj.ne'] at hq
    exact hs ⟨q, List.mem_of_getElem? hq, hact, hnote⟩

/-! ## The note-on and note-off rows -/

section
variable {i : Instr} {mode : NoteOnMode} {s : State} (hmode : s.cfg.noteOnMode = mode)
include hmode

theorem exec_of_isNoteOnRow {n v : Data7} (h : isNoteOnRow i mode n v) :
    exec i s = .next (noteOn n v s) := by
  obtain ⟨rfl, hv, c, rfl⟩ | ⟨rfl, rfl⟩ := h
  · exact execNoteOnGeneral_eq hmode c n hv
  · exact execNoteOnReference_eq hmode n v

theorem exec_of_isNoteOffRow {n : Data7} (h : isNoteOffRow i mode n) :
    exec i s = .next (noteOff n s) := by
  obtain ⟨rfl, c, rfl⟩ | ⟨rfl, c, v, rfl⟩ | ⟨rfl, k, v, rfl, hwf⟩ := h
  · exact execNoteOffGeneral9nV0_eq hmode c n
  · exact execNoteOffGeneral8n_eq hmode c n v
  · simp only [Instr.wf, Bool.and_eq_true, bne_iff_ne] at hwf
    obtain ⟨hk, -⟩ := hwf
    exact execNoteOffReference_eq hmode hk n v

end

/-- Settles O28: the row is NOTE_ON, by its cases. -/
theorem noteOnTakesTheLowestFreeSlot : Obligations.NoteOnTakesTheLowestFreeSlot := by
  intro i s n v hrow
  rw [exec_of_isNoteOnRow rfl hrow]
  refine ⟨fun hs => ?_, fun hs k r hr hfree hlow => ?_, fun hfull => ?_⟩
  · rw [noteOn_of_sounds v hs]
  · have hk : s.pool.findIdx? Slot.isFree = some k :=
      findIdx?_eq_some_of_lowest hr ((isFree_iff r).mpr hfree)
        fun j q hj hq => by simp [Slot.isFree, hlow j q hj hq]
    rw [noteOn_of_findIdx? v hs hk]
    rfl
  · have hnone : s.pool.findIdx? Slot.isFree = none :=
      List.findIdx?_eq_none_iff.mpr fun r hr => by simp [Slot.isFree, hfull r hr]
    rw [noteOn_of_full v hnone]

/-- Settles O29: the row is NOTE_OFF, by its cases. -/
theorem noteOffFreesTheMatchingSlot : Obligations.NoteOffFreesTheMatchingSlot := by
  intro i s n hrow
  rw [exec_of_isNoteOffRow rfl hrow]
  refine ⟨fun hs => ?_, fun k r hr hact hnote hlow => ?_⟩
  · rw [noteOff_of_absent (findIdx?_holdsNote_eq_none_iff.mpr hs)]
  · rw [noteOff_of_lowest hr hact hnote hlow]
    rfl

/-- Settles O30: both rows are IGNORE. -/
theorem ignoredMessagesChangeNothing : Obligations.IgnoredMessagesChangeNothing :=
  fun _ k c n v hm => ⟨execIgnoreGeneralAnBn_eq hm k n v, execIgnoreGeneralEn_eq hm c n v⟩

/-- A reachable slot that is not active is the reset value (R27). -/
theorem eq_free_of_slotFits {r : Slot} (hfits : slotFits r = true) (hfree : r.active = false) :
    r = Slot.free := by
  obtain ⟨note, active, amp⟩ := r
  simp_all [slotFits, Slot.free]

/-- Settles O32: the note-on takes a free slot, whose value is the one a note-off writes (R27). -/
theorem noteOnThenNoteOffRestores : Obligations.NoteOnThenNoteOffRestores := by
  intro s on off n v hinv hon hoff hs hfree
  rcases noteOn_cases n v s with ⟨hs', -⟩ | ⟨-, ⟨hfull, -⟩ | ⟨k, r, hk, hact, -, hwrite⟩⟩
  · exact absurd hs' hs
  · obtain ⟨r, hr, hinactive⟩ := hfree
    simp [hfull r hr] at hinactive
  · have hmem := List.mem_of_getElem? hk
    obtain rfl : r = Slot.free := eq_free_of_slotFits (hinv.slots r hmem) hact
    obtain ⟨hlt, -⟩ := List.getElem?_eq_some_iff.mp hk
    refine ⟨poolWrite k ⟨n, true, amplitude v⟩ s, ?_,
      ⟨⟨n, true, amplitude v⟩, List.mem_set hlt _, rfl, rfl⟩, ?_⟩
    · rw [exec_of_isNoteOnRow rfl hon, hwrite]
    · rw [exec_of_isNoteOffRow (s := poolWrite k _ s) rfl hoff, noteOff_poolWrite_voice hs hk]

/-! ## The event rows are ALLOC -/

theorem eventWord_injective : Function.Injective eventWord :=
  Function.LeftInverse.injective messageOfWord_eventWord

/-- An event row is ALLOC of the message its word carries (R140). -/
theorem exec_eventRow {i : Instr} (h : isEventRow i) :
    ∃ m, encode i = .event24 (eventWord m) ∧ ∀ s, exec i s = .next (alloc m s) := by
  cases i with
  | noteOnGeneral | noteOffGeneral9nV0 | noteOffGeneral8n | ignoreGeneralAnBn | ignoreGeneralEn
  | noteOnReference | noteOffReference => exact ⟨_, rfl, fun _ => rfl⟩
  | data | stNoteOff | stNoteOn | stPolyPressure | stControlChange | stProgramChange
  | stChannelPressure | stPitchBend | sysExStart | sysF1 | sysF2 | sysF3 | sysF4 | sysF5 | sysF6
  | sysExEnd | realtime | tick | reset | byte => cases h

/-- Settles O34: the row is ALLOC of a message. -/
theorem eventRowsWriteOnlyThePool : Obligations.EventRowsWriteOnlyThePool := by
  intro i s hrow
  obtain ⟨m, -, hexec⟩ := exec_eventRow hrow
  exact ⟨alloc m s, hexec s, alloc_eq m s⟩

/-- A row of a message is ALLOC of that message. -/
theorem RowOfMessage.exec_eq {mode : NoteOnMode} {m : ChannelMessage} {i : Instr}
    (h : RowOfMessage mode m i) (s : State) : exec i s = .next (alloc m s) := by
  obtain ⟨hencode, -, hmode⟩ := h
  obtain ⟨m', hencode', hexec⟩ := exec_eventRow (i := i) (by rw [isEventRow, hmode]; rfl)
  obtain rfl : m = m' := eventWord_injective (Code.event24.inj (hencode.symm.trans hencode'))
  exact hexec s

/-- R141, R142: every message of a two-parameter channel status has a row, in both modes. -/
theorem exists_decodeEvent_eq_ok (mode : NoteOnMode) {m : ChannelMessage}
    (h : isTwoParamStatus m.status = true) : ∃ i, decodeEvent mode m = .ok i := by
  unfold decodeEvent
  rw [if_pos h]
  cases mode <;> dsimp only <;> split_ifs <;> exact ⟨_, rfl⟩

/-- R122, R140: under a channel status the second data byte is ALLOC of the completed message, in the
state that shows it. -/
theorem exec_data_of_a2s {s : State} (v : Data7) (hd : s.dstate = .a2s)
    (hc : isChannelStatus s.status = true) :
    exec (.data v) s = .next (alloc ⟨s.status, s.data1, v⟩ (emitting v s)) := by
  change Host.Outcome.next (dataByte v s) = _
  rw [dataByte_of_a2s v hd, completeMessage_channel v hc]
  rfl

/-- Settles O27: the data byte and the row of its event word are ALLOC of the same message. -/
theorem allocatorRunsTheDecodedEventRow : Obligations.AllocatorRunsTheDecodedEventRow := by
  intro s v hd hst
  obtain ⟨i, hi⟩ := exists_decodeEvent_eq_ok s.cfg.noteOnMode (m := ⟨s.status, s.data1, v⟩) hst
  have hrow := rowOfMessage_of_decodeEvent hi
  refine ⟨i, (decode_event24 _ _).trans hi, hrow.wf, hrow.mode, ?_⟩
  rw [exec_data_of_a2s v hd (isChannelStatus_of_isTwoParamStatus _ hst), hrow.exec_eq]

/-! ## The slot a BYTE writes -/

/-- ALLOC is a write of the slot `writtenSlot` gives, when there is one. -/
theorem alloc_cases_writtenSlot (m : ChannelMessage) (s : State) :
    (writtenSlot s m = none ∧ alloc m s = s) ∨
    ∃ k r, writtenSlot s m = some k ∧ k < s.pool.length ∧ alloc m s = poolWrite k r s := by
  cases hc : classify s.cfg.noteOnMode m.status m.data2 with
  | noteOn =>
    simp only [writtenSlot, hc, alloc_noteOn hc]
    by_cases hs : sounds m.data1 s
    · exact .inl ⟨if_pos (any_holdsNote_iff.mpr hs), noteOn_of_sounds _ hs⟩
    rw [if_neg (mt any_holdsNote_iff.mp hs)]
    cases hk : s.pool.findIdx? Slot.isFree with
    | none => exact .inl ⟨rfl, noteOn_of_full _ hk⟩
    | some k =>
      obtain ⟨hlt, -⟩ := List.findIdx?_eq_some_iff_getElem.mp hk
      exact .inr ⟨k, _, rfl, hlt, noteOn_of_findIdx? _ hs hk⟩
  | noteOff =>
    simp only [writtenSlot, hc, alloc_noteOff hc]
    cases hk : s.pool.findIdx? (Slot.holdsNote m.data1) with
    | none => exact .inl ⟨rfl, noteOff_of_absent hk⟩
    | some k =>
      obtain ⟨hlt, -⟩ := List.findIdx?_eq_some_iff_getElem.mp hk
      exact .inr ⟨k, _, rfl, hlt, noteOff_of_findIdx? hk⟩
  | ignore =>
    simp only [writtenSlot, hc]
    exact .inl ⟨trivial, alloc_ignore hc⟩

theorem alloc_pool_length (m : ChannelMessage) (s : State) :
    (alloc m s).pool.length = s.pool.length := by
  rcases alloc_cases_writtenSlot m s with ⟨-, h⟩ | ⟨k, r, -, -, h⟩ <;> simp [h]

theorem alloc_of_writtenSlot_eq_none {m : ChannelMessage} {s : State} (hw : writtenSlot s m = none) :
    alloc m s = s := by
  rcases alloc_cases_writtenSlot m s with ⟨-, h⟩ | ⟨k, r, hw', -, -⟩
  · exact h
  · simp [hw'] at hw

/-- R143, R144: the other slots are kept. -/
theorem alloc_of_writtenSlot_eq_some {m : ChannelMessage} {s : State} {k : Nat}
    (hw : writtenSlot s m = some k) :
    k < s.pool.length ∧ ∀ j, j ≠ k → (alloc m s).pool[j]? = s.pool[j]? := by
  rcases alloc_cases_writtenSlot m s with ⟨hw', -⟩ | ⟨k', r, hw', hlt, h⟩
  · simp [hw'] at hw
  · obtain rfl : k' = k := Option.some.inj (hw'.symm.trans hw)
    exact ⟨hlt, fun j hj => by rw [h, poolWrite_pool, List.getElem?_set_ne hj.symm]⟩

/-- The pool after a step is that before it when the event port shows nothing, and else ALLOC's for the
event it shows (R100). -/
structure AllocatesItsEvent (s t : State) : Prop where
  silent : t.evt = none → t.pool = s.pool
  event  : ∀ m, t.evt = some m → t.pool = (alloc m s).pool

theorem allocatesItsEvent_of_silent {s t : State} (he : t.evt = none) (hp : t.pool = s.pool) :
    AllocatesItsEvent s t :=
  ⟨fun _ => hp, by simp [he]⟩

theorem dataByte_allocatesItsEvent (v : Data7) (s : State) :
    AllocatesItsEvent s (dataByte v s) := by
  cases hd : s.dstate with
  | idle | h1 | sysex =>
    rw [dataByte_of_absorbing v (by simp [hd])]
    exact allocatesItsEvent_of_silent rfl rfl
  | a1 =>
    rw [dataByte_of_a1 v hd]
    exact allocatesItsEvent_of_silent rfl rfl
  | a2f | h2 =>
    rw [dataByte_of_first v (by simp [hd])]
    exact allocatesItsEvent_of_silent rfl rfl
  | a2s =>
    rw [dataByte_of_a2s v hd]
    cases hc : isChannelStatus s.status with
    | false =>
      rw [completeMessage_other v hc]
      exact allocatesItsEvent_of_silent rfl rfl
    | true =>
      rw [completeMessage_channel v hc]
      refine ⟨by simp, fun m hm => ?_⟩
      obtain rfl : ⟨s.status, s.data1, v⟩ = m := by simpa using hm
      exact alloc_congr _ rfl rfl

/-- Only a data byte can emit an event. -/
theorem exec_byte_allocatesItsEvent (b : Byte) (s : State) :
    ∃ t, exec (.byte b) s = .next t ∧ AllocatesItsEvent s t := by
  refine ⟨_, execByte_eq b s, ?_⟩
  split
  · exact allocatesItsEvent_of_silent rfl rfl
  · split
    · exact dataByte_allocatesItsEvent _ s
    · exact allocatesItsEvent_of_silent rfl rfl

/-- Settles O33: the pool is the one before, or ALLOC's for the event. -/
theorem byteWritesAtMostOneSlot : Obligations.ByteWritesAtMostOneSlot := by
  intro s b
  obtain ⟨t, ht, hsilent, hevent⟩ := exec_byte_allocatesItsEvent b s
  refine ⟨t, ht, ?_, hsilent, fun m hm => ?_⟩
  · cases he : t.evt with
    | none => rw [hsilent he]
    | some m => rw [hevent m he, alloc_pool_length]
  · rw [hevent m hm]
    exact ⟨fun hw => congrArg State.pool (alloc_of_writtenSlot_eq_none hw),
      fun _ => alloc_of_writtenSlot_eq_some⟩

end Sys2Proof.Machine
end

section
/-! The oscillator OSC_EXACT against the real sine (42_synthesizer.md R173, R174): the integer reduction of the turn to a quarter turn is that of sine. -/

namespace Sys2Proof.Machine

/-! ## Rounding toward zero -/

theorem truncReal_of_nonneg {x : ℝ} (hx : 0 ≤ x) : truncReal x = ⌊x⌋ := if_pos hx

/-- Rounding toward zero commutes with the sign. -/
theorem truncReal_neg (x : ℝ) : truncReal (-x) = -truncReal x := by
  rcases lt_trichotomy x 0 with hx | rfl | hx
  · rw [truncReal, truncReal, if_pos (by linarith), if_neg (by linarith), Int.floor_neg]
  · simp [truncReal]
  · rw [truncReal, truncReal, if_neg (by linarith), if_pos hx.le, Int.ceil_neg]

@[simp] theorem truncReal_zero : truncReal 0 = 0 := by simp [truncReal]

/-- Rounding toward zero moves a real by less than 1. -/
theorem abs_truncReal_sub_lt_one (x : ℝ) : |(truncReal x : ℝ) - x| < 1 := by
  rw [abs_sub_lt_iff]
  unfold truncReal
  split
  · constructor <;> linarith [Int.floor_le x, Int.lt_floor_add_one x]
  · constructor <;> linarith [Int.le_ceil x, Int.ceil_lt_add_one x]

/-! ## The reduction of the turn

The angle is `2π · k / fs` for `k` below `fs`; mirrored at the half turn it is `2π · h / fs`, and mirrored
at the quarter turn `π · r / fs` with `2 r ≤ fs`. -/

/-- The half turn of R173's reduction: `k` mirrored at half a turn. -/
def halfTurn (fs k : ℕ) : ℕ := if 2 * k ≤ fs then k else fs - k

/-- The quarter turn of R173's reduction: twice `h` mirrored at a quarter turn. -/
def quarterTurn (fs h : ℕ) : ℕ := if 4 * h ≤ fs then 2 * h else fs - 2 * h

theorem oscExact_eq (fs a f p : ℕ) :
    oscExact fs a f p =
      if 2 * (f * p % fs) ≤ fs then magnitude fs a (quarterTurn fs (halfTurn fs (f * p % fs)))
      else -magnitude fs a (quarterTurn fs (halfTurn fs (f * p % fs))) := rfl

section
variable {fs : ℕ} (hfs : 0 < fs)
include hfs

/-- Sine has the period of a whole turn. -/
theorem sin_wholeTurn (m : ℕ) :
    Real.sin (2 * Real.pi * m / fs) = Real.sin (2 * Real.pi * (m % fs : ℕ) / fs) := by
  have hfs' : (fs : ℝ) ≠ 0 := Nat.cast_ne_zero.mpr hfs.ne'
  have hm : (m : ℝ) = (m % fs : ℕ) + fs * (m / fs : ℕ) := by exact_mod_cast (Nat.mod_add_div m fs).symm
  have harg : 2 * Real.pi * m / fs = 2 * Real.pi * (m % fs : ℕ) / fs + (m / fs : ℕ) * (2 * Real.pi) := by
    rw [hm]
    field_simp
  rw [harg, Real.sin_add_nat_mul_two_pi]

/-- Sine changes its sign when the turn is mirrored at the half turn. -/
theorem sin_halfTurn {k : ℕ} (hk : k < fs) :
    Real.sin (2 * Real.pi * k / fs) =
      if 2 * k ≤ fs then Real.sin (2 * Real.pi * halfTurn fs k / fs)
      else -Real.sin (2 * Real.pi * halfTurn fs k / fs) := by
  have hfs' : (fs : ℝ) ≠ 0 := Nat.cast_ne_zero.mpr hfs.ne'
  unfold halfTurn
  split
  · rfl
  · have harg : 2 * Real.pi * (fs - k : ℕ) / fs = 2 * Real.pi - 2 * Real.pi * k / fs := by
      rw [Nat.cast_sub hk.le]
      field_simp
    rw [harg, Real.sin_two_pi_sub, neg_neg]

/-- Sine is the same when the half turn is mirrored at the quarter turn. -/
theorem sin_quarterTurn {h : ℕ} (hh : 2 * h ≤ fs) :
    Real.sin (2 * Real.pi * h / fs) = Real.sin (Real.pi * quarterTurn fs h / fs) := by
  have hfs' : (fs : ℝ) ≠ 0 := Nat.cast_ne_zero.mpr hfs.ne'
  unfold quarterTurn
  split
  · congr 1
    push_cast
    ring
  · have harg : Real.pi * (fs - 2 * h : ℕ) / fs = Real.pi - 2 * Real.pi * h / fs := by
      rw [Nat.cast_sub hh]
      push_cast
      field_simp
    rw [harg, Real.sin_pi_sub]

/-- On the quarter turn the magnitude is the truncated product, since sine is not negative there. -/
theorem magnitude_eq_truncReal (a : ℕ) {r : ℕ} (hr : 2 * r ≤ fs) :
    magnitude fs a r = truncReal (a * Real.sin (Real.pi * r / fs)) := by
  have hfs' : (0 : ℝ) < fs := by exact_mod_cast hfs
  have hr' : (r : ℝ) ≤ fs := by exact_mod_cast (by omega : r ≤ fs)
  have hsin : 0 ≤ Real.sin (Real.pi * r / fs) := by
    refine Real.sin_nonneg_of_nonneg_of_le_pi (by positivity) ?_
    rw [div_le_iff₀ hfs']
    exact mul_le_mul_of_nonneg_left hr' Real.pi_pos.le
  rw [magnitude_eq_floor hfs a hr, truncReal_of_nonneg (by positivity)]

end

theorem two_mul_halfTurn_le {fs k : ℕ} (hk : k < fs) : 2 * halfTurn fs k ≤ fs := by
  unfold halfTurn
  split <;> omega

theorem two_mul_quarterTurn_le {fs h : ℕ} (hh : 2 * h ≤ fs) : 2 * quarterTurn fs h ≤ fs := by
  unfold quarterTurn
  split <;> omega

/-! ## The settled statements -/

/-- Settles O36: sine is reduced to the quarter turn as the model reduces the turn, and there the
magnitude is exact. -/
theorem oscillatorIsExact : Obligations.OscillatorIsExact := by
  intro fs a f p hfs
  have hk : f * p % fs < fs := Nat.mod_lt _ hfs
  have hh := two_mul_halfTurn_le hk
  have hprod : sineProduct fs a f p = a * Real.sin (2 * Real.pi * (f * p : ℕ) / fs) := by
    rw [sineProduct, Nat.cast_mul, mul_assoc (2 * Real.pi)]
  rw [oscExact_eq, magnitude_eq_truncReal hfs a (two_mul_quarterTurn_le hh), hprod,
    sin_wholeTurn hfs, sin_halfTurn hfs hk, sin_quarterTurn hfs hh]
  split
  · rfl
  · rw [mul_neg, truncReal_neg]

/-- The zero crossings of sine: the sample is 0 at every whole number of half turns (R173). -/
theorem oscExact_of_dvd {fs a f p : ℕ} (hfs : 0 < fs) (h : fs ∣ 2 * (f * p)) :
    oscExact fs a f p = 0 := by
  obtain ⟨c, hc⟩ := h
  have hfs' : (fs : ℝ) ≠ 0 := Nat.cast_ne_zero.mpr hfs.ne'
  have hc' : 2 * ((f : ℝ) * p) = fs * c := by exact_mod_cast hc
  have harg : 2 * Real.pi * f * p / fs = c * Real.pi := by
    rw [div_eq_iff hfs']
    linear_combination Real.pi * hc'
  rw [oscillatorIsExact fs a f p hfs, sineProduct, harg, Real.sin_nat_mul_pi, mul_zero,
    truncReal_zero]

section
variable {fs : ℕ} (hfs : 0 < fs)
include hfs

/-- R174 L1. -/
theorem oscExact_freq_zero (a p : ℕ) : oscExact fs a 0 p = 0 := oscExact_of_dvd hfs (by simp)

/-- R174 L2: the amplitude bounds the sample. -/
theorem oscExact_amp_zero (f p : ℕ) : oscExact fs 0 f p = 0 :=
  Int.natAbs_eq_zero.mp (Nat.le_zero.mp (oscExact_natAbs_le hfs 0 f p))

/-- R174 L3. -/
theorem oscExact_phase_zero (a f : ℕ) : oscExact fs a f 0 = 0 := oscExact_of_dvd hfs (by simp)

end

/-- Settles O37: the zeros are zero crossings, the bound is that of the magnitude, and the accuracy is
that of rounding toward zero. -/
theorem oscillatorLaws : Obligations.OscillatorLaws := by
  intro fs a f p hfs
  refine ⟨oscExact_freq_zero hfs a p, oscExact_amp_zero hfs f p, oscExact_phase_zero hfs a f, ?_, ?_⟩
  · have h := oscExact_natAbs_le hfs a f p
    rw [Int.abs_eq_natAbs]
    exact_mod_cast h
  · rw [oscillatorIsExact fs a f p hfs]
    exact abs_truncReal_sub_lt_one _

/-- Settles O38: at 22050 Hz a half turn is 11025. -/
theorem oscillatorZeroCrossings : Obligations.OscillatorZeroCrossings :=
  fun _ _ _ h => oscExact_of_dvd (by decide) (Nat.mul_dvd_mul_left 2 h)

end Sys2Proof.Machine
end

section
/-! The TICK (42_synthesizer.md R171, R175 to R181): its samples, their sum and mean, the phase, and when it is silent. -/

namespace Sys2Proof.Machine

/-! ## Channels -/

theorem tickState_frame_getElem? {s : State} {j : Nat} {r : Slot} (hr : s.pool[j]? = some r) :
    (tickState s).frame[j]? = some (slotSample s.cfg s.phase r) := by
  simp [frameOf, hr]

theorem amp_le_of_slotFits {r : Slot} (h : slotFits r = true) : r.amp.toNat ≤ 32512 := by
  simp only [slotFits, Bool.and_eq_true, decide_eq_true_eq] at h
  obtain ⟨⟨-, hamp⟩, -⟩ := h
  exact hamp

/-- Settles O39: the sample is OSC_EXACT where int16 holds it; the rest is the definition of the
update. -/
theorem tickComputesTheFrame : Obligations.TickComputesTheFrame := by
  refine fun s => ⟨tickState s, rfl, by simp [frameOf], fun j r hr => ?_, rfl, rfl, rfl, rfl⟩
  exact ⟨_, tickState_frame_getElem? hr, narrowSample_toInt⟩

/-- Settles O40: reachable amplitudes give samples that int16 holds, and these are exact (R173). -/
theorem tickOutputsExactSineSamples : Obligations.TickOutputsExactSineSamples := by
  intro s hinv
  refine ⟨tickState s, rfl, frameOf_length hinv s.phase, fun j r hr => ?_⟩
  have hamp := amp_le_of_slotFits (hinv.slots r (List.mem_of_getElem? hr))
  obtain ⟨hsample, -⟩ := slotSample_toInt s.cfg s.phase hamp
  exact ⟨_, tickState_frame_getElem? hr, hsample.trans (oscillatorIsExact _ _ _ _ s.cfg.fs_pos)⟩

/-! ## Sum and mean -/

section
variable {s : State} (h : CoreInv s)
include h

/-- R176: N samples of at most 32512 each. -/
theorem abs_mixSum_le : |s.mixSum| ≤ 32512 * s.cfg.n := by
  have hbounds := mixOf_bounds s.frame h.frameRange
  rw [h.frameLength] at hbounds
  rw [h.mixExact]
  exact abs_le.mpr hbounds

/-- R177: the mean of such a sum is at most 32512. -/
theorem abs_mono_le : |s.mono.toInt| ≤ 32512 := by
  have hsum := abs_mixSum_le h
  rw [Int.abs_eq_natAbs] at hsum
  have hquot : s.mixSum.natAbs / s.cfg.n ≤ 32512 := Nat.div_le_of_le_mul (by omega)
  rw [h.monoExact, Int.abs_eq_natAbs, Int.natAbs_tdiv, Int.natAbs_natCast]
  exact_mod_cast hquot

/-- R176: `16 + ceil(log2 N)` bits hold the sum, since `N ≤ 2 ^ ceil(log2 N)`. -/
theorem mixSum_fits_port :
    -2 ^ (mixSumWidth s.cfg.n - 1) ≤ s.mixSum ∧ s.mixSum < 2 ^ (mixSumWidth s.cfg.n - 1) := by
  have hsum := abs_le.mp (abs_mixSum_le h)
  have hn : 0 < (s.cfg.n : ℤ) := by exact_mod_cast s.cfg.n_pos
  have hclog : (s.cfg.n : ℤ) ≤ 2 ^ Nat.clog 2 s.cfg.n := by
    exact_mod_cast Nat.le_pow_clog one_lt_two s.cfg.n
  have hwidth : (2 : ℤ) ^ (mixSumWidth s.cfg.n - 1) = 32768 * 2 ^ Nat.clog 2 s.cfg.n := by
    rw [mixSumWidth, show 16 + Nat.clog 2 s.cfg.n - 1 = 15 + Nat.clog 2 s.cfg.n by omega, pow_add]
    norm_num
  rw [hwidth]
  constructor <;> linarith

end

/-- Settles O41: the bounds hold in every state of the invariant, which TICK keeps. -/
theorem mixAndMonoFitTheirPorts : Obligations.MixAndMonoFitTheirPorts := by
  refine ⟨fun s hinv => ?_, by decide, by decide⟩
  have ht : CoreInv (tickState s) := coreInv_tickState hinv
  obtain ⟨hlo, hhi⟩ := mixSum_fits_port ht
  exact ⟨tickState s, rfl, ht.mixExact, abs_mixSum_le ht, hlo, hhi, ht.monoExact, abs_mono_le ht⟩

/-! ## Phase and memory -/

/-- Settles O42: the phase is `nextPhase`. -/
theorem phaseAdvancesByOne : Obligations.PhaseAdvancesByOne := by
  refine ⟨fun s => ⟨tickState s, rfl, rfl⟩, fun s hbits hphase => ⟨tickState s, rfl, ?_⟩⟩
  rw [tickState_phase, nextPhase, hbits, hphase]
  rfl

/-- Two states show the same samples. -/
structure SameSamples (s t : State) : Prop where
  frame  : s.frame = t.frame
  mixSum : s.mixSum = t.mixSum
  mono   : s.mono = t.mono

/-- R180: TICK reads the parameters, PHASE and POOL. -/
theorem tickState_sameSamples {s t : State} (hcfg : s.cfg = t.cfg) (hphase : s.phase = t.phase)
    (hpool : s.pool = t.pool) : SameSamples (tickState s) (tickState t) := by
  constructor <;> simp [hcfg, hphase, hpool]

/-- Settles O44: TICK answers from what it reads. -/
theorem tickIsMemoryless : Obligations.TickIsMemoryless := by
  intro s1 s2 hcfg hphase hpool
  obtain ⟨hframe, hmixSum, hmono⟩ := tickState_sameSamples hcfg hphase hpool
  exact ⟨_, _, rfl, rfl, hframe, hmixSum, hmono⟩

/-! ## Silence -/

/-- An oscillator at 0 gives the sample 0. -/
theorem slotSample_eq_zero {cfg : Params} {p : Nat} {r : Slot}
    (h : oscExact cfg.fs r.amp.toNat (freq cfg r.note) p = 0) : slotSample cfg p r = 0 := by
  rw [slotSample, h]
  rfl

/-- R174 L1, L2: a slot whose note is below 12 or whose amplitude is 0 is silent at any phase. -/
theorem slotSample_of_silent (cfg : Params) (p : Nat) {r : Slot}
    (h : r.note.toNat < 12 ∨ r.amp = 0) : slotSample cfg p r = 0 := by
  apply slotSample_eq_zero
  rcases h with hnote | hamp
  · rw [freq_eq_zero_of_lt cfg hnote]
    exact oscExact_freq_zero cfg.fs_pos _ p
  · rw [hamp]
    exact oscExact_amp_zero cfg.fs_pos _ p

/-- R174 L3: every slot is silent at phase 0. -/
theorem slotSample_phase_zero (cfg : Params) (r : Slot) : slotSample cfg 0 r = 0 :=
  slotSample_eq_zero (oscExact_phase_zero cfg.fs_pos _ _)

/-- Every sample output of a state is 0. -/
structure Silent (s : State) : Prop where
  frame  : ∀ x ∈ s.frame, x = 0
  mixSum : s.mixSum = 0
  mono   : s.mono = 0

theorem mixOf_eq_zero {frame : List Sample} (h : ∀ x ∈ frame, x = 0) : mixOf frame = 0 :=
  List.sum_eq_zero fun y hy => by
    obtain ⟨x, hx, rfl⟩ := List.mem_map.mp hy
    rw [h x hx]
    rfl

@[simp] theorem monoOf_zero (n : Nat) : monoOf n 0 = 0 := by simp [monoOf]

/-- A TICK over silent slots is silent: the sum and the mean of zeros are 0. -/
theorem tickState_silent {s : State} (h : ∀ r ∈ s.pool, slotSample s.cfg s.phase r = 0) :
    Silent (tickState s) := by
  have hframe : ∀ x ∈ frameOf s.cfg s.phase s.pool, x = 0 := by
    intro x hx
    obtain ⟨r, hr, rfl⟩ := List.mem_map.mp hx
    exact h r hr
  exact ⟨hframe, mixOf_eq_zero hframe, by rw [tickState_mono, mixOf_eq_zero hframe, monoOf_zero]⟩

/-- Settles O45: an inactive slot of a reachable pool has amplitude 0 (R27). -/
theorem silentSlotsGiveZero : Obligations.SilentSlotsGiveZero := by
  refine ⟨fun s hinv hfree => ?_, fun s j r hr hsilent => ⟨tickState s, rfl, ?_⟩⟩
  · obtain ⟨hframe, hmixSum, hmono⟩ := tickState_silent (s := s) fun r hr => by
      rw [eq_free_of_slotFits (hinv.slots r hr) (hfree r hr)]
      exact slotSample_of_silent s.cfg s.phase (.inr rfl)
    exact ⟨tickState s, rfl, hframe, hmixSum, hmono⟩
  · rw [tickState_frame_getElem? hr, slotSample_of_silent s.cfg s.phase hsilent]

theorem ByteFrame.trans {s t u : State} (hst : ByteFrame s t) (htu : ByteFrame t u) :
    ByteFrame s u :=
  ⟨htu.cfg.trans hst.cfg, htu.phase.trans hst.phase, htu.frame.trans hst.frame,
    htu.mixSum.trans hst.mixSum, htu.mono.trans hst.mono, htu.inputs.trans hst.inputs⟩

/-- Any sequence of bytes has the frame of a BYTE (R72). -/
theorem feed_byteFrame (bytes : List Byte) (s : State) : ByteFrame s (feed bytes s).2 := by
  induction bytes generalizing s with
  | nil => exact ⟨rfl, rfl, rfl, rfl, rfl, rfl⟩
  | cons b rest ih =>
    obtain ⟨t, ht⟩ := execByte_next b s
    rw [feed_cons ht]
    exact (execByte_frame ht).trans (ih t)

theorem nextPhase_zero (cfg : Params) : nextPhase cfg 0 = 1 :=
  Nat.mod_eq_of_lt (Nat.one_lt_two_pow cfg.phaseBits_pos.ne')

/-- Settles O43: bytes leave the phase at 0, where every slot is silent. -/
theorem firstTickAfterResetIsSilent : Obligations.FirstTickAfterResetIsSilent := by
  intro s bytes
  have hphase : (feed bytes (resetState s)).2.phase = 0 := (feed_byteFrame bytes (resetState s)).phase
  obtain ⟨hframe, hmixSum, hmono⟩ := tickState_silent (s := (feed bytes (resetState s)).2) fun r _ => by
    rw [hphase]
    exact slotSample_phase_zero _ r
  refine ⟨resetState s, _, rfl, rfl, hframe, hmixSum, hmono, ?_⟩
  rw [tickState_phase, hphase, nextPhase_zero]

end Sys2Proof.Machine
end

section
/-! Batches of ticks (42_synthesizer.md R183), and the period of the outputs (R182). -/

namespace Sys2Proof.Machine

/-! ## Batches -/

theorem nextSamples_succ (count : Nat) (s : State) :
    nextSamples (count + 1) s =
      ((tickState s).frame :: (nextSamples count (tickState s)).1, (nextSamples count (tickState s)).2) :=
  rfl

/-- Two batches in a row are one. -/
theorem nextSamples_add (a b : Nat) (s : State) :
    nextSamples (a + b) s =
      ((nextSamples a s).1 ++ (nextSamples b (nextSamples a s).2).1,
        (nextSamples b (nextSamples a s).2).2) := by
  induction a generalizing s with
  | zero => rw [Nat.zero_add]; rfl
  | succ a ih =>
    rw [Nat.add_right_comm, nextSamples_succ, ih]
    rfl

/-- Settles O47, by induction on the first batch. -/
theorem batchIsTicksInARow : Obligations.BatchIsTicksInARow :=
  fun s => ⟨rfl, fun count => ⟨tickState s, rfl, nextSamples_succ count s⟩,
    fun a b => nextSamples_add a b s⟩

/-! ## The state after a batch -/

/-- The last tick of a batch. -/
theorem nextSamples_succ_state (k : Nat) (s : State) :
    (nextSamples (k + 1) s).2 = tickState (nextSamples k s).2 := by
  rw [nextSamples_add]
  rfl

@[simp] theorem nextSamples_cfg (k : Nat) (s : State) : (nextSamples k s).2.cfg = s.cfg := by
  induction k generalizing s with
  | zero => rfl
  | succ k ih => exact ih (tickState s)

@[simp] theorem nextSamples_pool (k : Nat) (s : State) : (nextSamples k s).2.pool = s.pool := by
  induction k generalizing s with
  | zero => rfl
  | succ k ih => exact ih (tickState s)

/-- R178, `k` times. -/
theorem nextSamples_phase {s : State} (h : s.phase < 2 ^ s.cfg.phaseBits) (k : Nat) :
    (nextSamples k s).2.phase = (s.phase + k) % 2 ^ s.cfg.phaseBits := by
  induction k with
  | zero => exact (Nat.mod_eq_of_lt h).symm
  | succ k ih =>
    rw [nextSamples_succ_state, tickState_phase, nextPhase, ih, nextSamples_cfg, Nat.mod_add_mod,
      Nat.add_assoc]

/-- The phase has the period of its modulus. -/
theorem nextSamples_phase_periodic {s : State} (h : s.phase < 2 ^ s.cfg.phaseBits) (k : Nat) :
    (nextSamples (2 ^ s.cfg.phaseBits + k) s).2.phase = (nextSamples k s).2.phase := by
  rw [nextSamples_phase h, nextSamples_phase h, Nat.add_left_comm, Nat.add_mod_left]

/-- Settles O46: the last tick of either batch starts from the same phase and pool (R180). -/
theorem outputsRepeatAfterTheModulus : Obligations.OutputsRepeatAfterTheModulus := by
  intro s k h hk
  obtain ⟨j, rfl⟩ := Nat.exists_eq_add_of_le' hk
  have hsame : SameSamples (nextSamples (2 ^ s.cfg.phaseBits + (j + 1)) s).2
      (nextSamples (j + 1) s).2 := by
    rw [← Nat.add_assoc, nextSamples_succ_state, nextSamples_succ_state]
    exact tickState_sameSamples (by simp) (nextSamples_phase_periodic h j) (by simp)
  exact ⟨hsame.frame, hsame.mixSum, hsame.mono, nextSamples_phase_periodic h (j + 1)⟩

end Sys2Proof.Machine
end

section
/-! The default note-frequency table (42_synthesizer.md R170) against the real equal temperament. -/

namespace Sys2Proof.Machine

/-- `v` is the frequency of note `n` rounded to the nearest integer, on the naturals: both sides of
`v - 1/2 ≤ 440 · 2^((n-69)/12) < v + 1/2`, times 2, to the power 12, times `2^69`. -/
def roundsTempered (n v : ℕ) : Bool :=
  decide (1 ≤ v) && decide ((2 * v - 1) ^ 12 * 2 ^ 69 ≤ 880 ^ 12 * 2 ^ n) &&
    decide (880 ^ 12 * 2 ^ n < (2 * v + 1) ^ 12 * 2 ^ 69)

/-- The twelfth power of the interval from note 69 is a whole number of octaves. -/
theorem tempered_pow_twelve (n : ℕ) :
    ((2 : ℝ) ^ (((n : ℝ) - 69) / 12)) ^ 12 * 2 ^ 69 = 2 ^ n := by
  rw [← Real.rpow_natCast, ← Real.rpow_mul zero_le_two, ← Real.rpow_natCast 2 69,
    ← Real.rpow_add zero_lt_two, ← Real.rpow_natCast 2 n]
  congr 1
  push_cast
  ring

/-- What `roundsTempered` decides: a power of 12 is monotone on the positive reals. -/
theorem eq_floor_of_roundsTempered {n v : ℕ} (h : roundsTempered n v = true) :
    (v : ℤ) = ⌊(440 : ℝ) * (2 : ℝ) ^ (((n : ℝ) - 69) / 12) + 1 / 2⌋ := by
  simp only [roundsTempered, Bool.and_eq_true, decide_eq_true_eq] at h
  obtain ⟨⟨hv, hlo⟩, hhi⟩ := h
  set y : ℝ := (2 : ℝ) ^ (((n : ℝ) - 69) / 12) with hy
  have hy0 : 0 ≤ y := by positivity
  have hpow : (880 : ℝ) ^ 12 * 2 ^ n = (880 * y) ^ 12 * 2 ^ 69 := by
    rw [← tempered_pow_twelve n, mul_pow, mul_assoc]
  have hlo' : (2 * (v : ℝ) - 1) ^ 12 ≤ (880 * y) ^ 12 := by
    have hcast : ((2 * v - 1 : ℕ) : ℝ) = 2 * v - 1 := by rw [Nat.cast_sub (by omega)]; push_cast; rfl
    rw [← mul_le_mul_iff_left₀ (by positivity : (0 : ℝ) < 2 ^ 69), ← hpow, ← hcast]
    exact_mod_cast hlo
  have hhi' : (880 * y) ^ 12 < (2 * (v : ℝ) + 1) ^ 12 := by
    rw [← mul_lt_mul_iff_left₀ (by positivity : (0 : ℝ) < 2 ^ 69), ← hpow]
    exact_mod_cast hhi
  have hlow : 2 * (v : ℝ) - 1 ≤ 880 * y := le_of_pow_le_pow_left₀ (by decide) (by positivity) hlo'
  have hhigh : 880 * y < 2 * (v : ℝ) + 1 := lt_of_pow_lt_pow_left₀ 12 (by positivity) hhi'
  refine (Int.floor_eq_iff.mpr ⟨?_, ?_⟩).symm <;> push_cast <;> linarith

/-- Each entry from note 12 on is the rounded frequency of its note. -/
theorem defaultNoteFreq_roundsTempered : ∀ n < 128, 12 ≤ n →
    roundsTempered n (defaultNoteFreq.getD n 0) = true := by
  decide +kernel

/-- Settles O51: the entries are compared on the naturals, where rounding is a comparison of twelfth
powers. -/
theorem defaultTableIsEqualTempered : Obligations.DefaultTableIsEqualTempered :=
  ⟨by decide +kernel, by decide +kernel, fun n hlo hhi =>
    eq_floor_of_roundsTempered (defaultNoteFreq_roundsTempered n hhi hlo)⟩

end Sys2Proof.Machine
end

section
/-! No exceptions, traps or refusals (60_exceptions.md R200, R201): every operation and every step completes. -/

namespace Sys2Proof.Machine

/-- Settles O6: the frame of R13 is claimed of the next state that each operation and each step answers,
so there always is one. -/
theorem noOperationStops : Obligations.NoOperationStops := by
  obtain ⟨hexec, hstep⟩ := parametersNeverChange
  exact ⟨fun i s => (hexec i s).imp fun _ => And.left, fun s => (hstep s).imp fun _ => And.left⟩

end Sys2Proof.Machine
end

section
/-! RESET (70_reset_and_hazards.md R220, R222) and how long a voice sounds (R229): the slot an event may change is free before a note-on, and holds the event's note before a note-off. -/

namespace Sys2Proof.Machine

/-! ## The pool under an event -/

/-- R143, R144: neither a note-on nor a note-off of another note writes an active slot. -/
theorem alloc_keeps_active {m : ChannelMessage} {s : State} {j : Nat} {r : Slot}
    (hr : s.pool[j]? = some r) (hact : r.active = true)
    (hoff : classify s.cfg.noteOnMode m.status m.data2 = .noteOff → m.data1 ≠ r.note) :
    (alloc m s).pool[j]? = some r := by
  have hset {k : Nat} {q : Slot} (q' : Slot) (hq : s.pool[k]? = some q) (hne : q ≠ r) :
      (s.pool.set k q')[j]? = some r := by
    have hkj : k ≠ j := fun hkj => hne (Option.some.inj (hq.symm.trans (hkj ▸ hr)))
    rw [List.getElem?_set_ne hkj, hr]
  cases hc : classify s.cfg.noteOnMode m.status m.data2 with
  | noteOn =>
    rw [alloc_noteOn hc]
    rcases noteOn_cases m.data1 m.data2 s with
      ⟨-, h⟩ | ⟨-, ⟨-, h⟩ | ⟨k, q, hq, hfree, -, h⟩⟩ <;> rw [h]
    · exact hr
    · exact hr
    · exact hset _ hq (by rintro rfl; simp [hact] at hfree)
  | noteOff =>
    rw [alloc_noteOff hc]
    rcases noteOff_cases m.data1 s with ⟨-, h⟩ | ⟨k, q, hq, -, hnote, -, h⟩ <;> rw [h]
    · exact hr
    · exact hset _ hq (by rintro rfl; exact hoff hc hnote.symm)
  | ignore => rwa [alloc_ignore hc]

/-- R144, R145: in a free pool no slot holds the note of a note-off. -/
theorem alloc_of_free_pool {m : ChannelMessage} {s : State} (hfree : ∀ r ∈ s.pool, r = Slot.free)
    (hc : classify s.cfg.noteOnMode m.status m.data2 ≠ .noteOn) : alloc m s = s := by
  cases hcls : classify s.cfg.noteOnMode m.status m.data2 with
  | noteOn => exact absurd hcls hc
  | noteOff =>
    have habsent : ¬sounds m.data1 s := by
      rintro ⟨r, hr, hact, -⟩
      rw [hfree r hr] at hact
      cases hact
    rw [alloc_noteOff hcls, noteOff_of_absent (findIdx?_holdsNote_eq_none_iff.mpr habsent)]
  | ignore => exact alloc_ignore hcls

/-! ## A step, whatever is presented -/

theorem AllocatesItsEvent.congr {s u t : State} (h : AllocatesItsEvent u t) (hcfg : u.cfg = s.cfg)
    (hpool : u.pool = s.pool) : AllocatesItsEvent s t :=
  ⟨fun he => (h.silent he).trans hpool, fun m hm => (h.event m hm).trans (alloc_congr m hcfg hpool)⟩

theorem step_of_nextInput_reset {s : State} (hr : (nextInput s).reset = true) :
    step s = .next (State.initial s.cfg s.inputs.tail) := by
  rw [step, decodeStep, if_pos hr, runInstrs_singleton]
  rfl

/-- R36, R72: without a reset the pool changes by the event of the step's BYTE alone, and the samples by
its TICK alone. -/
theorem step_of_nextInput_not_reset {s : State} (hr : (nextInput s).reset = false) :
    ∃ t, step s = .next t ∧ AllocatesItsEvent s t ∧
      ByteFrame (beforeByte (nextInput s) (takeInput s)) t := by
  obtain ⟨hcfg, -, -, -, -, hpool⟩ := beforeByte_sameDecoder (nextInput s) (takeInput s)
  rw [step, runInstrs_decodeStep hr]
  split
  · obtain ⟨t, ht, halloc⟩ :=
      exec_byte_allocatesItsEvent (nextInput s).byteIn (beforeByte (nextInput s) (takeInput s))
    exact ⟨t, ht, halloc.congr hcfg hpool, execByte_frame ht⟩
  · exact ⟨_, rfl, allocatesItsEvent_of_silent (beforeByte_evt _ _) hpool, rfl, rfl, rfl, rfl, rfl, rfl⟩

/-- Settles O35: the pool of the step is the one before, or ALLOC's for its event. -/
theorem voiceSoundsUntilItsNoteOff : Obligations.VoiceSoundsUntilItsNoteOff := by
  intro s j r hr hact hreset
  obtain ⟨t, ht, halloc, -⟩ := step_of_nextInput_not_reset hreset
  refine ⟨t, ht, fun hevent => ?_⟩
  cases he : t.evt with
  | none => rwa [halloc.silent he]
  | some m =>
    rw [halloc.event m he]
    exact alloc_keeps_active hr hact fun hoff hnote => hevent m he hnote hoff

/-! ## Silence after RESET -/

/-- R118, R120, R124: where data bytes are absorbed they leave the state as it is and emit nothing. -/
theorem feed_data_of_absorbing (ds : List Data7) {s : State}
    (hd : s.dstate = .idle ∨ s.dstate = .h1 ∨ s.dstate = .sysex) (he : s.evt = none) :
    feed (ds.map (fun v => 0#1 ++ v)) s = ([], s) := by
  induction ds with
  | nil => rfl
  | cons v ds ih =>
    have hkeep : dataByte v s = s := by rw [dataByte_of_absorbing v hd, emit, ← he]
    rw [List.map_cons, feed_data, hkeep, ih, he]
    rfl

theorem initial_pool_free (cfg : Params) (inputs : List StepInput) :
    ∀ r ∈ (State.initial cfg inputs).pool, r = Slot.free :=
  fun _ => List.eq_of_mem_replicate

theorem initial_silent (cfg : Params) (inputs : List StepInput) : Silent (State.initial cfg inputs) :=
  ⟨fun _ => List.eq_of_mem_replicate, rfl, rfl⟩

theorem tickState_silent_of_free {s : State} (hfree : ∀ r ∈ s.pool, r = Slot.free) :
    Silent (tickState s) :=
  tickState_silent fun r hr => slotSample_of_silent s.cfg s.phase (.inr (by rw [hfree r hr]; rfl))

theorem ByteFrame.silent {s t : State} (h : ByteFrame s t) (hs : Silent s) : Silent t :=
  ⟨by rw [h.frame]; exact hs.frame, h.mixSum.trans hs.mixSum, h.mono.trans hs.mono⟩

/-- R222 for one step without a reset from a free pool. -/
theorem step_of_free_pool {s : State} (hfree : ∀ r ∈ s.pool, r = Slot.free)
    (hr : (nextInput s).reset = false) : ∃ t, step s = .next t ∧
      ((∀ m, t.evt = some m → classify s.cfg.noteOnMode m.status m.data2 ≠ .noteOn) →
        t.pool = s.pool) ∧
      ((nextInput s).tick = true → Silent t) := by
  obtain ⟨t, ht, halloc, hframe⟩ := step_of_nextInput_not_reset hr
  refine ⟨t, ht, fun hevent => ?_, fun htick => ?_⟩
  · cases he : t.evt with
    | none => exact halloc.silent he
    | some m => rw [halloc.event m he, alloc_of_free_pool hfree (hevent m he)]
  · rw [beforeByte_of_tick htick] at hframe
    exact hframe.silent (tickState_silent_of_free hfree)

/-- Settles O2: RESET leaves the decoder in Idle, which absorbs data bytes, and a free pool; that a step
keeps, but for a note-on, and over it a TICK is silent. -/
theorem afterResetSilentUntilANoteOn : Obligations.AfterResetSilentUntilANoteOn := by
  refine ⟨fun s => ?_, fun s hfree => ?_⟩
  · have hfree := initial_pool_free s.cfg s.inputs
    obtain ⟨hframe, hmixSum, hmono⟩ := tickState_silent_of_free hfree
    exact ⟨State.initial s.cfg s.inputs, rfl, hfree, fun ds => feed_data_of_absorbing ds (.inl rfl) rfl,
      _, rfl, hframe, hmixSum, hmono, nextPhase_zero s.cfg⟩
  · cases hr : (nextInput s).reset with
    | true =>
      obtain ⟨hframe, hmixSum, hmono⟩ := initial_silent s.cfg s.inputs.tail
      exact ⟨_, step_of_nextInput_reset hr, fun _ => initial_pool_free _ _,
        fun _ => ⟨hframe, hmixSum, hmono⟩⟩
    | false =>
      obtain ⟨t, ht, hpool, hsilent⟩ := step_of_free_pool hfree hr
      refine ⟨t, ht, fun hevent => by rwa [hpool hevent], fun htick => ?_⟩
      obtain ⟨hframe, hmixSum, hmono⟩ := hsilent htick
      exact ⟨hframe, hmixSum, hmono⟩

/-! ## The reset values -/

/-- R173: at phase 0 every channel is 0. -/
theorem frameOf_phase_zero (cfg : Params) (pool : List Slot) :
    frameOf cfg 0 pool = List.replicate pool.length 0 :=
  List.map_eq_replicate_iff.mpr fun r _ => slotSample_phase_zero cfg r

/-- Settles O1: the reset values are those of `State.initial`, which reads the parameters and the inputs
only, both kept; the TICK after it is at phase 0. -/
theorem resetWritesResetValues : Obligations.ResetWritesResetValues := by
  intro s
  refine ⟨State.initial s.cfg s.inputs, rfl, rfl, rfl, rfl, rfl, rfl, rfl, rfl, rfl, rfl, rfl, rfl, rfl,
    tickState (State.initial s.cfg s.inputs), rfl, ?_, nextPhase_zero s.cfg⟩
  simp [frameOf_phase_zero]

end Sys2Proof.Machine
end
